-- ==== Sys2Proof/Config.lean ====
section
/-!
DEFINITION. What an implementation fixes, and the free values of the model.

The block has one configuration, `W = 16` (00_scope.md R5, D28). The constants below that are declared `opaque`
have no body: no proof can learn a value of theirs, so whatever is proved holds for every value.
-/
namespace Sys2Proof.Config

/-- `W`, the operand width (00_scope.md R5). Other widths are out of scope (R4, D28). -/
def operandWidth : Nat := 16

/-- `MAXV = 2^16 - 1`, the largest operand (00_scope.md R5). -/
def maxOperand : Nat := 2 ^ operandWidth - 1

/-- The width of the command word `CMD = {OP, A, B}` (30_encoding.md R60). -/
def commandWidth : Nat := 34

/-- `CYCLES_PER_STEP`, clock cycles per engine step: OPEN, a named parameter that no rule reads
(00_scope.md R5, 70_reset_and_hazards.md R187, 93 I9; assumption 20). -/
opaque cyclesPerStep : Nat

/-- FREE VALUE: which agent the `n`-th free choice of the interleaving names (20_memory.md R56, 93 I11;
assumption 2). Read only when `State.schedule` lists nothing. -/
opaque freeChoice : Nat → BitVec 2

/-- The hidden registers of 10_state.md R28, R29 and R30, by name. -/
inductive HiddenReg where
  | mulY | mulSx | mulAcc | mulI
  | divX | divY | divD | divK | divQ | divM | divPh
  | sqrtX | sqrtY | sqrtYsq | sqrtJ
  deriving DecidableEq, Repr

/-- FREE VALUE: what the hidden register `r`, of width `w`, holds once it has become unspecified in the step numbered by
the counter `State.draws`: by RESET (70_reset_and_hazards.md R180, 10_state.md R33; assumption 5), or because its engine
is no longer BUSY (10_state.md R32; assumption 6). 93 I5: any value. -/
opaque freeHidden (w : Nat) (r : HiddenReg) (draw : Nat) : BitVec w

end Sys2Proof.Config
end

