-- ==== Sys2Proof/Word.lean ====
section
/-!
DEFINITION. The widths that cross the block's interface (20_memory.md R53) and the engines' wide registers.

Every port is one unsigned binary integer with bit 0 least significant (20_memory.md R51).
-/
namespace Sys2Proof

/-- An operand, `A` or `B`: 16 bits unsigned (00_scope.md R11, 30_encoding.md R62). Also `DIV_RESULT`. -/
abbrev Word := BitVec 16

/-- A command word `CMD[33:0]` (30_encoding.md R60). -/
abbrev Cmd := BitVec 34

/-- 17 bits: `MUL_RESULT`, `MUL.acc` (10_state.md R24, R28) and `DIV.d` (R29). -/
abbrev Wide := BitVec 17

/-- 8 bits: `SQRT_RESULT`, `SQRT.y` (10_state.md R26, R30). -/
abbrev Root := BitVec 8

/-- `STATUS[7:0]` (10_state.md R22). -/
abbrev StatusWord := BitVec 8

end Sys2Proof
end

