-- ==== Sys2Proof/Syntax.lean ====
section
/-!
DEFINITION. The commands of the block: one constructor per row of spec/opcode_table.json (30_encoding.md R61).
-/
namespace Sys2Proof

/-- A command as the block decodes it. `a` is `CMD[31:16]` and `b` is `CMD[15:0]` (30_encoding.md R60).
`sqrt` and `reserved` carry fields that have no effect on an engine (R63, R64): the fault record holds the whole
34-bit `CMD` of a refused command (60_exceptions.md R160), so a command keeps them (assumption 16). -/
inductive Instr where
  /-- `OP = 00`: multiply `x = a` by `y = b` (41_multiply.md R100). -/
  | mul (a b : Word)
  /-- `OP = 01`: divide `x = a` by `y = b` (42_divide.md R120). -/
  | div (a b : Word)
  /-- `OP = 10`: floor square root of `x = a`; `b` is ignored (43_sqrt.md R140, 30_encoding.md R63). -/
  | sqrt (a b : Word)
  /-- `OP = 11`: reserved; `a` and `b` are not examined (30_encoding.md R64). -/
  | reserved (a b : Word)
  deriving DecidableEq, Repr

end Sys2Proof
end

