-- ==== Sys2Proof/Decode.lean ====
section
/-!
DEFINITION. Decoding and encoding of the command word (30_encoding.md R60, R61, R69).
-/
namespace Sys2Proof

/-- Why a number is no command word. -/
inductive DecodeError where
  /-- It needs more than the 34 wires of `CMD` (30_encoding.md R60, R65). -/
  | wordTooWide (w : Nat)
  deriving DecidableEq, Repr

/-- `OP = CMD[33:32]` (30_encoding.md R60). -/
def opField (w : Cmd) : BitVec 2 := w.extractLsb' 32 2

/-- `A = CMD[31:16]` (30_encoding.md R60). -/
def aField (w : Cmd) : Word := w.extractLsb' 16 16

/-- `B = CMD[15:0]` (30_encoding.md R60). -/
def bField (w : Cmd) : Word := w.extractLsb' 0 16

/-- The decoder of 30_encoding.md R69. It is total: every 34-bit word is one of the four commands (R64). -/
def decode (w : Cmd) : Instr :=
  if opField w = 0b00#2 then .mul (aField w) (bField w)
  else if opField w = 0b01#2 then .div (aField w) (bField w)
  else if opField w = 0b10#2 then .sqrt (aField w) (bField w)
  else .reserved (aField w) (bField w)

/-- The command a number stands for, or why it stands for none. -/
def decodeWord (w : Nat) : Except DecodeError Instr :=
  if w < 2 ^ Config.commandWidth then .ok (decode (BitVec.ofNat 34 w)) else .error (.wordTooWide w)

/-- The instruction in the low `nbits` bits of `w`, numbered as spec/opcode_table.json numbers them: bit 0 is the
least significant bit of the one 34-bit word (assumption 25). -/
def decodeTableWord (nbits w : Nat) : Option Instr :=
  (decodeWord (w % 2 ^ nbits)).toOption

/-- `{op, a, b}` (30_encoding.md R60). -/
def commandWord (op : BitVec 2) (a b : Word) : Cmd := op ++ a ++ b

/-- The `OP` of a command (30_encoding.md R61). -/
def Instr.opcode : Instr → BitVec 2
  | .mul _ _ => 0b00#2
  | .div _ _ => 0b01#2
  | .sqrt _ _ => 0b10#2
  | .reserved _ _ => 0b11#2

/-- The `A` field of a command. -/
def Instr.fieldA : Instr → Word
  | .mul a _ | .div a _ | .sqrt a _ | .reserved a _ => a

/-- The `B` field of a command. -/
def Instr.fieldB : Instr → Word
  | .mul _ b | .div _ b | .sqrt _ b | .reserved _ b => b

/-- The word of a command (30_encoding.md R60, R61). -/
def encode (i : Instr) : Cmd := commandWord i.opcode i.fieldA i.fieldB

/-- The `mask` column of spec/opcode_table.json, the same for its four rows (30_encoding.md R69). -/
def tableMask : Cmd := 0x300000000#34

/-- The `match` column of spec/opcode_table.json (30_encoding.md R69). -/
def Instr.tableMatch : Instr → Cmd
  | .mul _ _ => 0x000000000#34
  | .div _ _ => 0x100000000#34
  | .sqrt _ _ => 0x200000000#34
  | .reserved _ _ => 0x300000000#34

end Sys2Proof
end

