-- ==== Sys2Proof/Machine/Script.lean ====
section
/-!
DEFINITION. The host's notation (30_encoding.md R66 and R67): statements, operands, and the expansion of the
pseudo-statements into the basic statements the host runs, one host step each.

The block executes no program (10_state.md R31). The script is the host's, and State holds it because the host is
one of the four agents of the model (40_command.md R80; assumption 1).
-/
namespace Sys2Proof.Machine

/-- The three engines (00_scope.md R10). -/
inductive Engine where
  | mul | div | sqrt
  deriving DecidableEq, Repr

/-- An operand of a command statement: a number, or a host variable (95_test_vectors.md P3 uses one).
The host holds naturals, so an operand can be too large to be presented (00_scope.md R11). -/
inductive Operand where
  | lit (n : Nat)
  | var (v : Nat)
  deriving DecidableEq, Repr

/-- What the host does in one step (30_encoding.md R66, 40_command.md R80, 70_reset_and_hazards.md R180).
Host variables are numbered. -/
inductive HostStmt where
  /-- `MUL a, b`: present `{2'b00, a, b}`. -/
  | mul (a b : Operand)
  /-- `DIV a, b`: present `{2'b01, a, b}`. -/
  | div (a b : Operand)
  /-- `SQRT a`: present `{2'b10, a, 16'h0000}`. -/
  | sqrt (a : Operand)
  /-- `RSVD a, b`: present `{2'b11, a, b}`. -/
  | rsvd (a b : Operand)
  /-- Present the word `w` itself: R60 lets a host drive any word, R66 names no notation for a SQRT word with a
  nonzero `B` (assumption 15). -/
  | cmd (w : Nat)
  /-- `RDSTAT s`: read `STATUS` into the variable `s`. -/
  | rdstat (s : Nat)
  /-- `RD E, r`: read the result register of `E` into the variable `r`. -/
  | rd (e : Engine) (r : Nat)
  /-- One turn of `WAIT E`: `RDSTAT s; if s.E_DONE = 0 and s.E_FAULT = 0 then goto L`, where `L` is this statement
  (R67). One host step, because R80 gives the host no step that only branches (assumption 11). -/
  | poll (e : Engine) (s : Nat)
  /-- Assert `RESET` (70_reset_and_hazards.md R180). -/
  | reset
  deriving DecidableEq, Repr

/-- A statement of a host script: basic, or one of the pseudo-statements of 30_encoding.md R67. `s` is the variable
that `WAIT`'s `RDSTAT` writes (assumption 12). -/
inductive ScriptStmt where
  | basic (st : HostStmt)
  | wait (e : Engine) (s : Nat)
  | callMul (a b : Operand) (s r : Nat)
  | callDiv (a b : Operand) (s r : Nat)
  | callSqrt (a : Operand) (s r : Nat)
  deriving DecidableEq, Repr

/-- The expansions of 30_encoding.md R67. -/
def ScriptStmt.expand : ScriptStmt → List HostStmt
  | .basic st => [st]
  | .wait e s => [.poll e s]
  | .callMul a b s r => [.mul a b, .poll .mul s, .rd .mul r]
  | .callDiv a b s r => [.div a b, .poll .div s, .rd .div r]
  | .callSqrt a s r => [.sqrt a, .poll .sqrt s, .rd .sqrt r]

/-- A whole script, expanded: what the host's statement index counts in. -/
def assemble (script : List ScriptStmt) : List HostStmt :=
  script.flatMap ScriptStmt.expand

end Sys2Proof.Machine
end

