-- ==== Sys2Proof/Machine/State.lean ====
section
/-!
DEFINITION. The state: the block (10_state.md R20 to R30), the model's fault record (60_exceptions.md R161), the
host, and the model's own two fields for the interleaving. Plain data throughout.

The block has no memory, no program counter and no general registers, and a model must give it none
(10_state.md R31, 20_memory.md R50; assumption 22).
-/
namespace Sys2Proof.Machine

/-- `E.st` (10_state.md R21). Only DIV can reach `fault`, which `Safety.Inv` states. -/
inductive EngineStatus where
  | idle | busy | done | fault
  deriving DecidableEq, Repr

/-- `DIV.ph` (10_state.md R29). -/
inductive DivPhase where
  | descend | ascend
  deriving DecidableEq, Repr

/-- The MUL engine: `MUL.st` (10_state.md R21), the hidden registers of R28, and `MUL_RESULT[16:0]` (R24), `none`
when it holds `NOVALUE` (R27). -/
structure MulEngine where
  st : EngineStatus
  y : Word
  sx : Word
  acc : Wide
  i : BitVec 4
  result : Option Wide
  deriving DecidableEq, Repr

/-- The DIV engine: `DIV.st` (10_state.md R21), the hidden registers of R29 (`k` is `DIV.K`, `m` is `DIV.M`), and
`DIV_RESULT[15:0]` (R25), `none` when it holds `NOVALUE` (R27). -/
structure DivEngine where
  st : EngineStatus
  x : Word
  y : Word
  d : Wide
  k : BitVec 5
  q : Word
  m : Word
  ph : DivPhase
  result : Option Word
  deriving DecidableEq, Repr

/-- The SQRT engine: `SQRT.st` (10_state.md R21), the hidden registers of R30, and `SQRT_RESULT[7:0]` (R26), `none`
when it holds `NOVALUE` (R27). -/
structure SqrtEngine where
  st : EngineStatus
  x : Word
  y : Root
  ysq : Word
  j : BitVec 3
  result : Option Root
  deriving DecidableEq, Repr

/-- `CoreState` (10_state.md R20). -/
structure CoreState where
  mul : MulEngine
  div : DivEngine
  sqrt : SqrtEngine
  cmdErr : Bool
  deriving DecidableEq, Repr

/-- One entry of the model's fault record: a cause of 60_exceptions.md R160 with its "model record" column. -/
inductive FaultEntry where
  /-- Cause 1, `DIV_BY_ZERO`, with the command's `A`. -/
  | divByZero (a : Word)
  /-- Cause 2, `RESERVED_OP`, with the whole `CMD`. -/
  | reservedOp (cmd : Cmd)
  /-- Cause 3, `ENGINE_NOT_READY`, with the engine and the whole `CMD`. -/
  | engineNotReady (e : Engine) (cmd : Cmd)
  /-- Cause 4, `RESULT_NOT_READY`, with the engine. -/
  | resultNotReady (e : Engine)
  deriving DecidableEq, Repr

/-- One bit per engine. -/
structure EngineFlags where
  mul : Bool
  div : Bool
  sqrt : Bool
  deriving DecidableEq, Repr

/-- The host: its script and statement index (30_encoding.md R66, 10_state.md R31), its variables (strictly rising,
an unlisted one is unwritten), and what it may do by the duties of 70_reset_and_hazards.md: `mayCommand` is R183,
`mayRead` is R184 (assumption 18). -/
structure HostSide where
  script : List HostStmt
  index : Nat
  vars : List (Nat × Nat)
  mayCommand : EngineFlags
  mayRead : EngineFlags
  deriving DecidableEq, Repr

/-- The four agents (40_command.md R80). -/
inductive Agent where
  | host
  | engine (e : Engine)
  deriving DecidableEq, Repr

/-- The whole state. `schedule` and `draws` are the MODEL'S own: which agents are to move next, oldest first, and the
counter that free values are applied to (assumptions 2 and 28). -/
structure State where
  core : CoreState
  faults : List FaultEntry
  host : HostSide
  schedule : List Agent
  draws : Nat
  deriving DecidableEq, Repr

/-- Why a step stops with a fault. The causes of 60_exceptions.md R160 are not here: they are recorded and the
machine goes on (R163; assumption 9). -/
inductive Fault where
  /-- The host's command statement uses a host variable that holds no value (60_exceptions.md R167: "reading it later
  is a fault of the host program"). Raised by `evalOperand`. Safe: the run stops. -/
  | unsetVariable (v : Nat)
  deriving DecidableEq, Repr

/-- Why a step is refused. -/
inductive Refusal where
  /-- No meaning for the instruction yet. Raised by `exec` alone. Safe: the run stops. -/
  | notModelled (mnemonic : String)
  /-- The host's operand is above 65535 and cannot be presented; a model refuses it and never truncates it
  (00_scope.md R11). Raised by `evalOperand`. Safe: the run stops. -/
  | operandOutOfRange (n : Nat)
  /-- The host's word needs more than the 34 wires of `CMD` (30_encoding.md R60). Raised by `presentWord`.
  Safe: the run stops. -/
  | wordTooWide (w : Nat)
  deriving DecidableEq, Repr

/-- The block after reset (10_state.md R33). The hidden registers, which R33 leaves unspecified, are 0: a
DESIGN CHOICE (assumption 4). -/
def CoreState.reset : CoreState where
  mul := { st := .idle, y := 0, sx := 0, acc := 0, i := 0, result := none }
  div := { st := .idle, x := 0, y := 0, d := 0, k := 0, q := 0, m := 0, ph := .descend, result := none }
  sqrt := { st := .idle, x := 0, y := 0, ysq := 0, j := 0, result := none }
  cmdErr := false

/-- The host before it has a script: no variable set, every engine free to be commanded (70_reset_and_hazards.md
R183), nothing to read (R184). -/
def HostSide.reset : HostSide where
  script := []
  index := 0
  vars := []
  mayCommand := { mul := true, div := true, sqrt := true }
  mayRead := { mul := false, div := false, sqrt := false }

/-- The post-reset state a model starts from (70_reset_and_hazards.md R182), with an empty fault record. -/
def State.reset : State where
  core := CoreState.reset
  faults := []
  host := HostSide.reset
  schedule := []
  draws := 0

end Sys2Proof.Machine
end

