-- ==== Sys2Proof/Machine/Flags.lean ====
section
/-!
DEFINITION. The status word and what a host reads from it (10_state.md R22, 30_encoding.md R67).
-/
namespace Sys2Proof.Machine

/-- `E.st` by engine. -/
def CoreState.status (c : CoreState) : Engine → EngineStatus
  | .mul => c.mul.st
  | .div => c.div.st
  | .sqrt => c.sqrt.st

/-- `STATUS[7:0]`, bit 7 first, computed from the engine states and `CMD_ERR` (10_state.md R22). -/
def statusWord (c : CoreState) : StatusWord :=
  BitVec.ofBool c.cmdErr
    ++ BitVec.ofBool (decide (c.sqrt.st = .done))
    ++ BitVec.ofBool (decide (c.sqrt.st = .busy))
    ++ BitVec.ofBool (decide (c.div.st = .fault))
    ++ BitVec.ofBool (decide (c.div.st = .done))
    ++ BitVec.ofBool (decide (c.div.st = .busy))
    ++ BitVec.ofBool (decide (c.mul.st = .done))
    ++ BitVec.ofBool (decide (c.mul.st = .busy))

/-- The bit number of `E_DONE` in `STATUS` (10_state.md R22). -/
def doneBit : Engine → Nat
  | .mul => 1
  | .div => 3
  | .sqrt => 6

/-- `w.E_DONE`. -/
def showsDone (e : Engine) (w : StatusWord) : Bool := w.getLsbD (doneBit e)

/-- `w.E_FAULT`: `DIV_FAULT` for DIV and the constant 0 otherwise (30_encoding.md R67). -/
def showsFault (e : Engine) (w : StatusWord) : Bool :=
  match e with
  | .div => w.getLsbD 4
  | .mul | .sqrt => false

/-- `WAIT E` ends on this status word (30_encoding.md R67). `CMD_ERR` does not end it. -/
def endsWait (e : Engine) (w : StatusWord) : Bool := showsDone e w || showsFault e w

/-- The flag of one engine. -/
def EngineFlags.get (f : EngineFlags) : Engine → Bool
  | .mul => f.mul
  | .div => f.div
  | .sqrt => f.sqrt

/-- Set the flag of one engine. -/
def EngineFlags.set (f : EngineFlags) (e : Engine) (v : Bool) : EngineFlags :=
  match e with
  | .mul => { f with mul := v }
  | .div => { f with div := v }
  | .sqrt => { f with sqrt := v }

/-- Set the flags of the engines that a status word shows DONE; leave the others. -/
def EngineFlags.setDone (f : EngineFlags) (w : StatusWord) : EngineFlags where
  mul := f.mul || showsDone .mul w
  div := f.div || showsDone .div w
  sqrt := f.sqrt || showsDone .sqrt w

end Sys2Proof.Machine
end

