-- ==== Sys2Proof/Machine/Ops.lean ====
section
/-!
DEFINITION. The named operations: writing an engine, reading a result register, host variables, RAISING A FAULT, and
the checks every command passes through.
-/
namespace Sys2Proof.Machine

/-- Replace the MUL engine. -/
def State.setMul (e : MulEngine) (s : State) : State := { s with core := { s.core with mul := e } }

/-- Replace the DIV engine. -/
def State.setDiv (e : DivEngine) (s : State) : State := { s with core := { s.core with div := e } }

/-- Replace the SQRT engine. -/
def State.setSqrt (e : SqrtEngine) (s : State) : State := { s with core := { s.core with sqrt := e } }

/-- The contents of a result register as a natural, `none` for `NOVALUE` (10_state.md R24 to R27). -/
def CoreState.resultReg (c : CoreState) : Engine → Option Nat
  | .mul => c.mul.result.map BitVec.toNat
  | .div => c.div.result.map BitVec.toNat
  | .sqrt => c.sqrt.result.map BitVec.toNat

/-- `read_result(E)` of 40_command.md R85: a value only while the engine is DONE and its register holds one
(10_state.md R27; assumption 8). -/
def readResult (e : Engine) (c : CoreState) : Option Nat :=
  if c.status e = .done then c.resultReg e else none

/-! ## Unspecified hidden registers (10_state.md R32, R33; 93 I5: any value) -/

/-- The MUL engine with this status and result, and a FREE VALUE in each hidden register (assumptions 5 and 6). -/
def freeMul (st : EngineStatus) (result : Option Wide) (n : Nat) : MulEngine where
  st := st
  y := Config.freeHidden 16 .mulY n
  sx := Config.freeHidden 16 .mulSx n
  acc := Config.freeHidden 17 .mulAcc n
  i := Config.freeHidden 4 .mulI n
  result := result

/-- The DIV engine with this status and result, and a FREE VALUE in each hidden register (assumptions 5 and 6). -/
def freeDiv (st : EngineStatus) (result : Option Word) (n : Nat) : DivEngine where
  st := st
  x := Config.freeHidden 16 .divX n
  y := Config.freeHidden 16 .divY n
  d := Config.freeHidden 17 .divD n
  k := Config.freeHidden 5 .divK n
  q := Config.freeHidden 16 .divQ n
  m := Config.freeHidden 16 .divM n
  ph := if Config.freeHidden 1 .divPh n = 0 then .descend else .ascend
  result := result

/-- The SQRT engine with this status and result, and a FREE VALUE in each hidden register (assumptions 5 and 6). -/
def freeSqrt (st : EngineStatus) (result : Option Root) (n : Nat) : SqrtEngine where
  st := st
  x := Config.freeHidden 16 .sqrtX n
  y := Config.freeHidden 8 .sqrtY n
  ysq := Config.freeHidden 16 .sqrtYsq n
  j := Config.freeHidden 3 .sqrtJ n
  result := result

/-- The MUL engine after a step of it: once it is no longer BUSY, its hidden registers are unspecified
(10_state.md R32; assumption 6). -/
def settleMul (n : Nat) (e : MulEngine) : MulEngine := if e.st = .busy then e else freeMul e.st e.result n

/-- The DIV engine after a step of it: once it is no longer BUSY, its hidden registers are unspecified
(10_state.md R32; assumption 6). -/
def settleDiv (n : Nat) (e : DivEngine) : DivEngine := if e.st = .busy then e else freeDiv e.st e.result n

/-- The SQRT engine after a step of it: once it is no longer BUSY, its hidden registers are unspecified
(10_state.md R32; assumption 6). -/
def settleSqrt (n : Nat) (e : SqrtEngine) : SqrtEngine := if e.st = .busy then e else freeSqrt e.st e.result n

/-! ## Host variables -/

/-- The value of a host variable, `none` when it is unwritten. -/
def getVar (v : Nat) : List (Nat × Nat) → Option Nat
  | [] => none
  | (k, n) :: rest => if k = v then some n else getVar v rest

/-- Make a host variable unwritten. -/
def eraseVar (v : Nat) : List (Nat × Nat) → List (Nat × Nat)
  | [] => []
  | (k, n) :: rest => if k = v then eraseVar v rest else (k, n) :: eraseVar v rest

/-- Put a pair before the first larger variable. -/
def insertVar (v n : Nat) : List (Nat × Nat) → List (Nat × Nat)
  | [] => [(v, n)]
  | (k, m) :: rest => if v < k then (v, n) :: (k, m) :: rest else (k, m) :: insertVar v n rest

/-- Write a host variable. -/
def setVar (v n : Nat) (vars : List (Nat × Nat)) : List (Nat × Nat) := insertVar v n (eraseVar v vars)

/-! ## Raising a fault -/

/-- The "hardware record" column of 60_exceptions.md R160: what the block itself changes. A DIV engine in FAULT has
unspecified hidden registers, as outside BUSY always (10_state.md R32; assumption 6). -/
def recordInHardware (f : FaultEntry) (n : Nat) (c : CoreState) : CoreState :=
  match f with
  | .divByZero _ => { c with div := freeDiv .fault none n }
  | .reservedOp _ => { c with cmdErr := true }
  | .engineNotReady _ _ => { c with cmdErr := true }
  | .resultNotReady _ => c

/-- `raise Fault(cause)` (00_scope.md R7, 60_exceptions.md R161): set the hardware's status bits and append the entry
to the model's fault record. It is no trap: nothing else changes, no control is transferred (R163), and there is no
return from it (R164); the machine goes on (assumption 9). -/
def raise (f : FaultEntry) (s : State) : State :=
  { s with core := recordInHardware f s.draws s.core, faults := s.faults ++ [f] }

/-! ## Acceptance -/

/-- The engine a command addresses, by `OP` (30_encoding.md R61). -/
def engineOf : Instr → Option Engine
  | .mul _ _ => some .mul
  | .div _ _ => some .div
  | .sqrt _ _ => some .sqrt
  | .reserved _ _ => none

/-- The engine can take a command: it is neither BUSY nor FAULT (40_command.md R80, R81). -/
def ready (e : Engine) (c : CoreState) : Bool :=
  match c.status e with
  | .idle | .done => true
  | .busy | .fault => false

/-- The command is accepted: its engine is ready, and it is no division by zero (40_command.md R80). -/
def accepts (i : Instr) (c : CoreState) : Bool :=
  match i with
  | .mul _ _ => ready .mul c
  | .div _ b => ready .div c && decide (b ≠ 0#16)
  | .sqrt _ _ => ready .sqrt c
  | .reserved _ _ => false

/-- The second check of 40_command.md R80 and 60_exceptions.md R162, which MUL, DIV and SQRT share: a command to a BUSY
or FAULT engine raises cause 3 and is lost; otherwise go on with `start`. -/
def ifReady (e : Engine) (i : Instr) (start : State → State) (s : State) : State :=
  if ready e s.core then start s else raise (.engineNotReady e (encode i)) s

end Sys2Proof.Machine
end

