-- ==== Sys2Proof/Machine/Operands.lean ====
section
/-!
DEFINITION. The operand forms. On the port there is one: two 16-bit fields, taken whole (30_encoding.md R62; the fields
are read in Decode.lean). On the host's side an operand is a number or a host variable (R66).
-/
namespace Sys2Proof.Machine

/-- Go on with the value of an outcome, or stop as it stops. -/
def andThen {α β : Type} (x : Host.Outcome α Fault Refusal) (f : α → Host.Outcome β Fault Refusal) :
    Host.Outcome β Fault Refusal :=
  match x with
  | .next a => f a
  | .fault r => .fault r
  | .refused r => .refused r

/-- Put a natural on a 16-bit operand port, or refuse it: never truncate it (00_scope.md R11). -/
def toPort (n : Nat) : Host.Outcome Word Fault Refusal :=
  if n ≤ Config.maxOperand then .next (BitVec.ofNat 16 n) else .refused (.operandOutOfRange n)

/-- The value of a host operand (30_encoding.md R66). An unwritten variable is a fault of the host program
(60_exceptions.md R167). -/
def evalOperand (o : Operand) (vars : List (Nat × Nat)) : Host.Outcome Word Fault Refusal :=
  match o with
  | .lit n => toPort n
  | .var v =>
    match getVar v vars with
    | some n => toPort n
    | none => .fault (.unsetVariable v)

end Sys2Proof.Machine
end

