-- ==== Sys2Proof/Machine/Divide.lean ====
section
/-!
DEFINITION. DIV, the recursive-doubling divider (42_divide.md).
-/
namespace Sys2Proof.Machine

/-- `init_DIV(a, b)` (42_divide.md R123) with `DIV.st <- BUSY`: every register written, `DIV_RESULT` holds NOVALUE
(40_command.md R80, R82). -/
def initDiv (a b : Word) : DivEngine where
  st := .busy
  x := a
  y := b
  d := b.setWidth 17
  k := 0
  q := 0
  m := 0
  ph := .descend
  result := none

/-- The DESCEND half of `step_DIV` (42_divide.md R123). -/
def stepDivDescend (e : DivEngine) : DivEngine :=
  if e.d.toNat ≤ e.x.toNat then { e with d := e.d <<< 1, k := e.k + 1 }
  else if e.k = 0#5 then { e with result := some 0, st := .done }
  else { e with ph := .ascend }

/-- `d'` of `step_DIV`: the divisor of the level being returned to (42_divide.md R123). -/
def DivEngine.dNext (e : DivEngine) : Wide := e.d >>> 1

/-- `b` of `step_DIV`: 1 when the remainder `r = DIV.x - DIV.M` is at least `d'` (42_divide.md R123). -/
def DivEngine.quotientBit (e : DivEngine) : Bool := decide (e.dNext.toNat ≤ (e.x - e.m).toNat)

/-- `q' = 2 * DIV.q + b` of `step_DIV` (42_divide.md R123). -/
def DivEngine.qNext (e : DivEngine) : Word := (e.q <<< 1) + (if e.quotientBit then 1 else 0)

/-- `DIV.M + b * d'` of `step_DIV` (42_divide.md R123). -/
def DivEngine.mNext (e : DivEngine) : Word := e.m + (if e.quotientBit then e.dNext.setWidth 16 else 0)

/-- The registers an ASCEND step writes, before its completion test (42_divide.md R123). -/
def DivEngine.ascended (e : DivEngine) : DivEngine :=
  { e with m := e.mNext, d := e.dNext, k := e.k - 1, q := e.qNext }

/-- The ASCEND half of `step_DIV`: complete when `K' = 0` (42_divide.md R123, 90_conflicts.md C7). -/
def stepDivAscend (e : DivEngine) : DivEngine :=
  if e.k - 1 = 0#5 then { e.ascended with result := some e.qNext, st := .done } else e.ascended

/-- `step_DIV` (42_divide.md R123), with every register it writes. Taken only while `DIV.st = BUSY`. On completion the
machine goes on with `settleDiv` of this (10_state.md R32). -/
def stepDiv (e : DivEngine) : DivEngine :=
  match e.ph with
  | .descend => stepDivDescend e
  | .ascend => stepDivAscend e

/-- The third check of 60_exceptions.md R162, then acceptance: `B = 0` raises cause 1 (42_divide.md R126). -/
def startDiv (a b : Word) (s : State) : State :=
  if b = 0#16 then raise (.divByZero a) s else s.setDiv (initDiv a b)

/-- DIV presented on the command port (42_divide.md R120, 40_command.md R80). -/
def execDiv (a b : Word) (s : State) : Host.Outcome State Fault Refusal :=
  .next (ifReady .div (.div a b) (startDiv a b) s)

end Sys2Proof.Machine
end

