-- ==== Sys2Proof/Machine/Multiply.lean ====
section
/-!
DEFINITION. MUL, the shift-and-add multiplier (41_multiply.md).
-/
namespace Sys2Proof.Machine

/-- `init_MUL(a, b)` (41_multiply.md R103) with `MUL.st <- BUSY`: every register written, `MUL_RESULT` holds NOVALUE
(40_command.md R80, R82). -/
def initMul (a b : Word) : MulEngine where
  st := .busy
  y := b
  sx := a
  acc := 0
  i := 0
  result := none

/-- `acc'` of `step_MUL` (41_multiply.md R103): a 17-bit add. -/
def MulEngine.accNext (e : MulEngine) : Wide :=
  e.acc + (if e.y.getLsbD e.i.toNat then e.sx.setWidth 17 else 0)

/-- The loop ends: last position, or doubling would exceed 65535 (41_multiply.md R103). -/
def MulEngine.lastPosition (e : MulEngine) : Bool :=
  decide (e.i = 15#4) || e.sx.getLsbD 15

/-- `step_MUL` (41_multiply.md R103), with every register it writes. Taken only while `MUL.st = BUSY`. On completion the
machine goes on with `settleMul` of this (10_state.md R32). -/
def stepMul (e : MulEngine) : MulEngine :=
  if e.lastPosition then { e with result := some e.accNext, st := .done }
  else { e with acc := e.accNext, sx := e.sx <<< 1, i := e.i + 1 }

/-- MUL presented on the command port (41_multiply.md R100, 40_command.md R80). -/
def execMul (a b : Word) (s : State) : Host.Outcome State Fault Refusal :=
  .next (ifReady .mul (.mul a b) (State.setMul (initMul a b)) s)

end Sys2Proof.Machine
end

