-- ==== Sys2Proof/Machine/Reserved.lean ====
section
/-!
DEFINITION. The reserved encoding, `OP = 11` (30_encoding.md R64).
-/
namespace Sys2Proof.Machine

/-- A reserved command presented on the command port: no engine changes, `CMD_ERR` is set and cause 2 is recorded
(30_encoding.md R64, 60_exceptions.md R160). -/
def execReserved (a b : Word) (s : State) : Host.Outcome State Fault Refusal :=
  .next (raise (.reservedOp (encode (.reserved a b))) s)

end Sys2Proof.Machine
end

