-- ==== Sys2Proof/Machine/SquareRoot.lean ====
section
/-!
DEFINITION. SQRT, the binary-search square root (43_sqrt.md).
-/
namespace Sys2Proof.Machine

/-- `init_SQRT(a)` (43_sqrt.md R143) with `SQRT.st <- BUSY`: every register written, `SQRT_RESULT` holds NOVALUE
(40_command.md R80, R82). -/
def initSqrt (a : Word) : SqrtEngine where
  st := .busy
  x := a
  y := 0
  ysq := 0
  j := 7
  result := none

/-- `c`, the candidate of `step_SQRT` (43_sqrt.md R143). -/
def SqrtEngine.candidate (e : SqrtEngine) : Root := e.y ||| (1#8 <<< e.j.toNat)

/-- `csq`, the candidate's square by shifts and adds (43_sqrt.md R143). -/
def SqrtEngine.candidateSq (e : SqrtEngine) : Word :=
  e.ysq + (e.y.setWidth 16 <<< (e.j.toNat + 1)) + (1#16 <<< (2 * e.j.toNat))

/-- The bit is kept: `csq <= SQRT.x` (43_sqrt.md R143). -/
def SqrtEngine.keeps (e : SqrtEngine) : Bool := decide (e.candidateSq.toNat ≤ e.x.toNat)

/-- `y'` of `step_SQRT` (43_sqrt.md R143). -/
def SqrtEngine.yNext (e : SqrtEngine) : Root := if e.keeps then e.candidate else e.y

/-- The new `SQRT.ysq` (43_sqrt.md R143). -/
def SqrtEngine.ysqNext (e : SqrtEngine) : Word := if e.keeps then e.candidateSq else e.ysq

/-- `step_SQRT` (43_sqrt.md R143), with every register it writes. Taken only while `SQRT.st = BUSY`. On completion the
machine goes on with `settleSqrt` of this (10_state.md R32). -/
def stepSqrt (e : SqrtEngine) : SqrtEngine :=
  if e.j = 0#3 then { e with y := e.yNext, ysq := e.ysqNext, result := some e.yNext, st := .done }
  else { e with y := e.yNext, ysq := e.ysqNext, j := e.j - 1 }

/-- SQRT presented on the command port (43_sqrt.md R140, 40_command.md R80). `b` reaches nothing but the record of a
refused command (30_encoding.md R63, 60_exceptions.md R160). -/
def execSqrt (a b : Word) (s : State) : Host.Outcome State Fault Refusal :=
  .next (ifReady .sqrt (.sqrt a b) (State.setSqrt (initSqrt a)) s)

end Sys2Proof.Machine
end

