-- ==== Sys2Proof/Machine/Dispatch.lean ====
section
/-!
DEFINITION. What the block does when a command is presented: one arm per row of spec/opcode_table.json.
-/
namespace Sys2Proof.Machine

/-- `accept(op, a, b)` of 40_command.md R80. -/
def exec (i : Instr) (s : State) : Host.Outcome State Fault Refusal :=
  match i with
  | .mul a b => Sys2Proof.Machine.execMul a b s
  | .div a b => Sys2Proof.Machine.execDiv a b s
  | .sqrt a b => Sys2Proof.Machine.execSqrt a b s
  | .reserved a b => Sys2Proof.Machine.execReserved a b s

end Sys2Proof.Machine
end

