-- ==== Sys2Proof/Machine/HostSteps.lean ====
section
/-!
DEFINITION. The host's steps (40_command.md R80, R84, R85; 30_encoding.md R66, R67; 70_reset_and_hazards.md R180).
Every read sees the state at the start of the step (20_memory.md R53).
-/
namespace Sys2Proof.Machine

/-- The host goes on with its next statement. -/
def State.nextStmt (s : State) : State := { s with host := { s.host with index := s.host.index + 1 } }

/-! ## Presenting a command -/

/-- The host's side of presenting `i`: its next statement, and its permissions. A presented command ends the window in
which its engine's result may be read (70_reset_and_hazards.md R184); an accepted one ends the permission to command the
engine (R183; assumption 29). -/
def afterPresent (i : Instr) (s : State) : State :=
  match engineOf i with
  | none => s.nextStmt
  | some e =>
    { s with
      host :=
        { s.host with
          index := s.host.index + 1
          mayRead := s.host.mayRead.set e false
          mayCommand := if accepts i s.core then s.host.mayCommand.set e false else s.host.mayCommand } }

/-- Present the decoded command: the host's side, and the block's `accept` (40_command.md R80). -/
def presentInstr (i : Instr) (s : State) : Host.Outcome State Fault Refusal := exec i (afterPresent i s)

/-- Present a word: the block decodes what is on its port (30_encoding.md R69). -/
def presentWord (w : Nat) (s : State) : Host.Outcome State Fault Refusal :=
  match decodeWord w with
  | .ok i => presentInstr i s
  | .error (.wordTooWide n) => .refused (.wordTooWide n)

/-- Present `{op, a, b}` with the operands of a command statement (30_encoding.md R66). DESIGN CHOICE: `a` is looked at
before `b`, so where both are bad, each by a number above 65535 (00_scope.md R11) or by an unwritten variable
(60_exceptions.md R167), the stop reported is that of `a`; the spec gives no order (assumption 30). -/
def presentOperands (op : BitVec 2) (a b : Operand) (s : State) : Host.Outcome State Fault Refusal :=
  andThen (evalOperand a s.host.vars) fun x =>
    andThen (evalOperand b s.host.vars) fun y => presentWord (commandWord op x y).toNat s

/-! ## Reads -/

/-- What the host knows after reading `STATUS`: the variable, and the permissions that a DONE bit gives
(70_reset_and_hazards.md R183, R184). -/
def HostSide.sawStatus (v : Nat) (w : StatusWord) (h : HostSide) : HostSide :=
  { h with
    vars := setVar v w.toNat h.vars
    mayCommand := h.mayCommand.setDone w
    mayRead := h.mayRead.setDone w }

/-- A `STATUS` read into a host variable: no block state changes (40_command.md R84). -/
def readStatus (v : Nat) (s : State) : State :=
  { s with host := s.host.sawStatus v (statusWord s.core) }

/-- `RD E, r` (40_command.md R85). A read that is not ready records cause 4 and gives the host no value: the variable is
unwritten afterwards (60_exceptions.md R167; assumption 10). -/
def readInto (e : Engine) (v : Nat) (s : State) : State :=
  match readResult e s.core with
  | some n => { s with host := { s.host with vars := setVar v n s.host.vars } }
  | none => raise (.resultNotReady e) { s with host := { s.host with vars := eraseVar v s.host.vars } }

/-- One turn of `WAIT E` (30_encoding.md R67): read `STATUS`, and stay at this statement unless it ends the wait. -/
def pollOnce (e : Engine) (v : Nat) (s : State) : State :=
  if endsWait e (statusWord s.core) then (readStatus v s).nextStmt else readStatus v s

/-! ## RESET -/

/-- The block after a RESET step (70_reset_and_hazards.md R180, 10_state.md R33): the hidden registers become
unspecified, so each holds a FREE VALUE (assumption 5). -/
def resetCore (n : Nat) : CoreState where
  mul := freeMul .idle none n
  div := freeDiv .idle none n
  sqrt := freeSqrt .idle none n
  cmdErr := false

/-- The host after it has asserted `RESET`: every engine free to be commanded, nothing to read
(70_reset_and_hazards.md R183, R184). Its script and variables are its own. -/
def HostSide.sawReset (h : HostSide) : HostSide :=
  { h with
    mayCommand := { mul := true, div := true, sqrt := true }
    mayRead := { mul := false, div := false, sqrt := false } }

/-- The RESET step (70_reset_and_hazards.md R180, R181). The fault record is not cleared (60_exceptions.md R161). -/
def assertReset (s : State) : State :=
  { s with core := resetCore s.draws, host := s.host.sawReset }

/-! ## One statement -/

/-- The host runs one statement. -/
def runStmt (st : HostStmt) (s : State) : Host.Outcome State Fault Refusal :=
  match st with
  | .mul a b => presentOperands 0b00#2 a b s
  | .div a b => presentOperands 0b01#2 a b s
  | .sqrt a => presentOperands 0b10#2 a (.lit 0) s
  | .rsvd a b => presentOperands 0b11#2 a b s
  | .cmd w => presentWord w s
  | .rdstat v => .next (readStatus v s).nextStmt
  | .rd e v => .next (readInto e v s).nextStmt
  | .poll e v => .next (pollOnce e v s)
  | .reset => .next (assertReset s).nextStmt

end Sys2Proof.Machine
end

