-- ==== Sys2Proof/Machine/Schedule.lean ====
section
/-!
DEFINITION. Which agent moves next (40_command.md R80, R83; 20_memory.md R56; assumption 2), and one step of each.
-/
namespace Sys2Proof.Machine

/-- The host's current statement. -/
def HostSide.current (h : HostSide) : Option HostStmt := h.script[h.index]?

/-- The agent has an enabled step: an engine while it is BUSY (40_command.md R83), the host while it has a statement. -/
def enabled (a : Agent) (s : State) : Bool :=
  match a with
  | .host => s.host.current.isSome
  | .engine e => decide (s.core.status e = .busy)

/-- The agent that a two-bit choice names. -/
def agentOfChoice (c : BitVec 2) : Agent :=
  if c = 0b00#2 then .engine .mul
  else if c = 0b01#2 then .engine .div
  else if c = 0b10#2 then .engine .sqrt
  else .host

/-- The agent that is asked first: the schedule's, or a FREE choice where it lists none. -/
def askedFirst (s : State) : Agent :=
  match s.schedule with
  | a :: _ => a
  | [] => agentOfChoice (Config.freeChoice s.draws)

/-- All four agents, the given one first. -/
def agentsFrom : Agent → List Agent
  | .host => [.host, .engine .mul, .engine .div, .engine .sqrt]
  | .engine .mul => [.engine .mul, .engine .div, .engine .sqrt, .host]
  | .engine .div => [.engine .div, .engine .sqrt, .host, .engine .mul]
  | .engine .sqrt => [.engine .sqrt, .host, .engine .mul, .engine .div]

/-- The agent that moves: the one asked first if it has an enabled step, or else the next that has one; `none` when no
agent has one (70_reset_and_hazards.md R188). -/
def nextAgent (s : State) : Option Agent := (agentsFrom (askedFirst s)).find? (enabled · s)

/-- Use up one entry of the schedule and one number of the counter. -/
def State.tick (s : State) : State := { s with schedule := s.schedule.tail, draws := s.draws + 1 }

/-- One step of a BUSY engine (40_command.md R83), which leaves its hidden registers unspecified when it completes
(10_state.md R32). Nothing else changes (R86). -/
def engineStep (e : Engine) (s : State) : State :=
  match e with
  | .mul => s.setMul (settleMul s.draws (stepMul s.core.mul))
  | .div => s.setDiv (settleDiv s.draws (stepDiv s.core.div))
  | .sqrt => s.setSqrt (settleSqrt s.draws (stepSqrt s.core.sqrt))

/-- One step of the host: its current statement. A host that has run its last statement does nothing. -/
def hostStep (s : State) : Host.Outcome State Fault Refusal :=
  match s.host.current with
  | some st => runStmt st s
  | none => .next s

end Sys2Proof.Machine
end

