-- ==== Sys2Proof/Machine/Step.lean ====
section
/-!
DEFINITION. One step of the whole machine: one atomic transition of one agent (00_scope.md R8).
-/
namespace Sys2Proof.Machine

/-- The agent that moves takes its step. Where no agent has an enabled step nothing changes
(70_reset_and_hazards.md R188; assumption 3). -/
def step (s : State) : Host.Outcome State Fault Refusal :=
  match nextAgent s with
  | none => .next s
  | some .host => hostStep s.tick
  | some (.engine e) => .next (engineStep e s.tick)

/-- `s` with the host about to present the word in the low `nbits` bits of `w`, as its current statement, and with the
host to move. What the host had still to run comes after it. This stands for the host loading its script from outside
(assumption 1). -/
def State.withFetchWord (s : State) (nbits w : Nat) : State :=
  { s with
    host := { s.host with script := .cmd (w % 2 ^ nbits) :: s.host.script.drop s.host.index, index := 0 }
    schedule := .host :: s.schedule }

end Sys2Proof.Machine
end

