-- ==== Sys2Proof/Machine/Values.lean ====
section
/-!
DEFINITION. The values of the three operations on naturals, transcribed from the source's algorithms
(41_multiply.md R101, 42_divide.md R121, 43_sqrt.md R141), and the two counts `k(x)` and `K(x, y)`.
The engines do not call these: that each engine's run ends with them is an obligation.
-/
namespace Sys2Proof.Machine

/-- The loop of `mul16` with `n` positions left, at position `i` (41_multiply.md R101). -/
def mulLoop (y : Nat) : Nat → Nat → Nat → Nat → Nat
  | 0, _, acc, _ => acc
  | n + 1, i, acc, sx =>
    let acc' := if y.testBit i then acc + sx else acc
    if sx * 2 > 65535 then acc' else mulLoop y n (i + 1) acc' (sx * 2)

/-- `mul16(x, y)` (41_multiply.md R101): the accumulator whole, not reduced mod 2^16 (90_conflicts.md C1, C2). -/
def mul16 (x y : Nat) : Nat := mulLoop y 16 0 0 x

/-- The largest position up to `n` at which `x` shifted still fits 16 bits. -/
def scanDown (x : Nat) : Nat → Nat
  | 0 => 0
  | n + 1 => if x * 2 ^ (n + 1) ≤ 65535 then n + 1 else scanDown x n

/-- `k(x) = max { i in 0..15 : x * 2^i <= 65535 }`, the last scanned position (41_multiply.md R102). -/
def lastScanned (x : Nat) : Nat := scanDown x 15

/-- The recursion of `div16` to a bounded depth (42_divide.md R121). -/
def divRec : Nat → Nat → Nat → Nat
  | 0, _, _ => 0
  | n + 1, x, y =>
    if y > x then 0
    else
      let q := divRec n x (2 * y)
      let remainder := x - 2 * q * y
      if remainder < y then 2 * q else 2 * q + 1

/-- `div16(x, y)` (42_divide.md R121): at most 17 invocations for 16-bit operands (R125). No value for `y = 0`
(R126). -/
def div16 (x y : Nat) : Option Nat := if y = 0 then none else some (divRec 17 x y)

/-- How often `d` is doubled before it exceeds `x`, to a bounded depth. -/
def doubleUp (x : Nat) : Nat → Nat → Nat
  | 0, _ => 0
  | n + 1, d => if d > x then 0 else doubleUp x n (2 * d) + 1

/-- `K(x, y) = min { K >= 0 : y * 2^K > x }` for `y >= 1` (42_divide.md R121). -/
def doublings (x y : Nat) : Nat := doubleUp x 17 y

/-- The search of `isqrt16` with the positions below `n` left (43_sqrt.md R141). -/
def sqrtLoop (x : Nat) : Nat → Nat → Nat
  | 0, y => y
  | n + 1, y =>
    let candidate := y + 2 ^ n
    if candidate ^ 2 ≤ x then sqrtLoop x n candidate else sqrtLoop x n y

/-- `isqrt16(x)` (43_sqrt.md R141). -/
def isqrt16 (x : Nat) : Nat := sqrtLoop x 8 0

end Sys2Proof.Machine
end

