-- ==== Sys2Proof/WellFormed.lean ====
section
/-!
DEFINITION. What can be put on the command port: operands in 0..65535 (00_scope.md R11), a word of 34 bits
(30_encoding.md R60, R65).
-/
namespace Sys2Proof

/-- Every operand the block takes is in 0..65535 (00_scope.md R11). The fields of `Instr` have the ports' widths, so
every `Instr` passes (`Sys2Proof.Laws.instr_wellFormed`); the checks below can fail. -/
def Instr.wellFormed : Instr → Bool
  | .mul a b | .div a b | .sqrt a b | .reserved a b =>
    decide (a.toNat ≤ Config.maxOperand) && decide (b.toNat ≤ Config.maxOperand)

/-- An operand written as a number must fit the port (00_scope.md R11); a variable is checked when it is read. -/
def Machine.Operand.wellFormed : Machine.Operand → Bool
  | .lit n => decide (n ≤ Config.maxOperand)
  | .var _ => true

/-- A statement the host can run as it is written. -/
def Machine.HostStmt.wellFormed : Machine.HostStmt → Bool
  | .mul a b | .div a b | .rsvd a b => a.wellFormed && b.wellFormed
  | .sqrt a => a.wellFormed
  | .cmd w => decide (w < 2 ^ Config.commandWidth)
  | .rdstat _ | .rd _ _ | .poll _ _ | .reset => true

/-- A script all of whose statements can be run as they are written. -/
def Machine.scriptWellFormed (script : List Machine.HostStmt) : Bool :=
  script.all Machine.HostStmt.wellFormed

end Sys2Proof
end

