-- ==== Sys2Proof/Safety.lean ====
section
/-!
DEFINITION. The terms that claims are stated in: an operation in progress, the invariant of the machine, a successful
end, the host's duties, runs and fairness, and what a host can tell two states apart by.
-/
namespace Sys2Proof.Safety

open Sys2Proof.Machine

/-! ## An operation in progress, engine by engine -/

/-- The MUL engine is BUSY with operands `x` and `y`: the invariants of 41_multiply.md R104. -/
structure MulBusy (x y : Word) (e : MulEngine) : Prop where
  busy : e.st = .busy
  noResult : e.result = none
  yLatched : e.y = y
  sxShifted : e.sx.toNat = x.toNat * 2 ^ e.i.toNat
  iBound : e.i.toNat ≤ lastScanned x.toNat
  accPartial : e.acc.toNat = x.toNat * (y.toNat % 2 ^ e.i.toNat)

/-- The MUL engine is DONE with the value of operands `x` and `y` (41_multiply.md R104). -/
def MulDone (x y : Word) (e : MulEngine) : Prop :=
  e.st = .done ∧ e.result.map BitVec.toNat = some (mul16 x.toNat y.toNat)

/-- The DIV engine is BUSY with operands `x` and `y`: the invariants of 42_divide.md R124. -/
structure DivBusy (x y : Word) (e : DivEngine) : Prop where
  busy : e.st = .busy
  noResult : e.result = none
  xLatched : e.x = x
  yLatched : e.y = y
  yNonzero : y ≠ 0#16
  dDoubled : e.d.toNat = y.toNat * 2 ^ e.k.toNat
  kBound : e.k.toNat ≤ doublings x.toNat y.toNat
  descending : e.ph = .descend →
    e.q = 0#16 ∧ e.m = 0#16 ∧ (1 ≤ e.k.toNat → y.toNat * 2 ^ (e.k.toNat - 1) ≤ x.toNat)
  ascending : e.ph = .ascend →
    1 ≤ e.k.toNat ∧ e.q.toNat = x.toNat / e.d.toNat ∧ e.m.toNat = e.q.toNat * e.d.toNat ∧ e.m.toNat ≤ x.toNat

/-- The DIV engine is DONE with the value of operands `x` and `y` (42_divide.md R124). -/
def DivDone (x y : Word) (e : DivEngine) : Prop :=
  e.st = .done ∧ y ≠ 0#16 ∧ e.result.map BitVec.toNat = div16 x.toNat y.toNat

/-- The SQRT engine is BUSY with operand `x`: the invariants of 43_sqrt.md R144. -/
structure SqrtBusy (x : Word) (e : SqrtEngine) : Prop where
  busy : e.st = .busy
  noResult : e.result = none
  xLatched : e.x = x
  yPrefix : e.y.toNat = isqrt16 x.toNat / 2 ^ (e.j.toNat + 1) * 2 ^ (e.j.toNat + 1)
  ysqSquare : e.ysq.toNat = e.y.toNat ^ 2

/-- The SQRT engine is DONE with the value of operand `x` (43_sqrt.md R144). -/
def SqrtDone (x : Word) (e : SqrtEngine) : Prop :=
  e.st = .done ∧ e.result.map BitVec.toNat = some (isqrt16 x.toNat)

/-- The engine runs, or has finished, `MUL x, y`. -/
def MulRuns (x y : Word) (e : MulEngine) : Prop := MulBusy x y e ∨ MulDone x y e

/-- The engine runs, or has finished, `DIV x, y`. -/
def DivRuns (x y : Word) (e : DivEngine) : Prop := DivBusy x y e ∨ DivDone x y e

/-- The engine runs, or has finished, `SQRT x`. -/
def SqrtRuns (x : Word) (e : SqrtEngine) : Prop := SqrtBusy x e ∨ SqrtDone x e

/-! ## The invariant -/

/-- MUL is IDLE without a result, or runs or has finished some operation; it is never in FAULT (10_state.md R21, R27). -/
def MulOk (e : MulEngine) : Prop := (e.st = .idle ∧ e.result = none) ∨ ∃ x y, MulRuns x y e

/-- DIV is IDLE or in FAULT without a result, or runs or has finished some operation (10_state.md R21, R27). -/
def DivOk (e : DivEngine) : Prop :=
  ((e.st = .idle ∨ e.st = .fault) ∧ e.result = none) ∨ ∃ x y, DivRuns x y e

/-- SQRT is IDLE without a result, or runs or has finished some operation; it is never in FAULT
(10_state.md R21, R27). -/
def SqrtOk (e : SqrtEngine) : Prop := (e.st = .idle ∧ e.result = none) ∨ ∃ x, SqrtRuns x e

/-- The host's permissions are right: one to command means the engine is not BUSY (70_reset_and_hazards.md R183), one to
read means it is DONE (R184). -/
def PermissionsOk (s : State) : Prop :=
  ∀ e, (s.host.mayCommand.get e = true → s.core.status e ≠ .busy) ∧
    (s.host.mayRead.get e = true → s.core.status e = .done)

/-- Host variables are listed strictly rising, each once. -/
abbrev VarsSorted (vars : List (Nat × Nat)) : Prop := vars.Pairwise fun p q => p.1 < q.1

/-- The invariant that reset has and every step keeps. -/
structure Inv (s : State) : Prop where
  mul : MulOk s.core.mul
  div : DivOk s.core.div
  sqrt : SqrtOk s.core.sqrt
  permissions : PermissionsOk s
  vars : VarsSorted s.host.vars

/-! ## The end of a host program, and the host's duties -/

/-- A successful end (70_reset_and_hazards.md R186): the host has run its last statement, no engine is BUSY, and the
fault record is empty. -/
def Successful (s : State) : Prop :=
  s.host.current = none ∧ (∀ e, s.core.status e ≠ .busy) ∧ s.faults = []

/-- The engine a statement presents a command to. -/
def commandedEngine : HostStmt → Option Engine
  | .mul _ _ => some .mul
  | .div _ _ => some .div
  | .sqrt _ => some .sqrt
  | .cmd w => ((decodeWord w).toOption).bind engineOf
  | .rsvd _ _ | .rdstat _ | .rd _ _ | .poll _ _ | .reset => none

/-- The statement keeps the host's duties of 70_reset_and_hazards.md R183 and R184. -/
def keepsDuty (h : HostSide) (st : HostStmt) : Bool :=
  (match commandedEngine st with
    | some e => h.mayCommand.get e
    | none => true) &&
  (match st with
    | .rd e _ => h.mayRead.get e
    | _ => true)

/-- The statement asserts RESET. -/
def isReset : HostStmt → Bool
  | .reset => true
  | _ => false

/-- The next step is the host's, and it runs this statement. -/
def HostRuns (st : HostStmt) (s : State) : Prop := nextAgent s = some .host ∧ s.host.current = some st

/-- The next step asserts RESET. -/
def Resets (s : State) : Prop := HostRuns .reset s

/-- The next step presents a command to this engine. -/
def Commands (e : Engine) (s : State) : Prop := ∃ st, HostRuns st s ∧ commandedEngine st = some e

/-! ## Runs -/

/-- An infinite run of the machine. -/
def IsRun (r : Nat → State) : Prop := ∀ n, step (r n) = .next (r (n + 1))

/-- Weak fairness (40_command.md R87): an engine that stays BUSY eventually takes its next step. It is a hypothesis on a
run; the step does not enforce it (assumption 27). -/
def WeaklyFair (r : Nat → State) : Prop :=
  ∀ e n, (∀ m, n ≤ m → (r m).core.status e = .busy) → ∃ m, n ≤ m ∧ nextAgent (r m) = some (.engine e)

/-! ## What can be told apart -/

/-- Forget the hidden registers of an engine that is not BUSY (10_state.md R32). -/
def hideMul (e : MulEngine) : MulEngine :=
  if e.st = .busy then e else { e with y := 0, sx := 0, acc := 0, i := 0 }

/-- Forget the hidden registers of an engine that is not BUSY (10_state.md R32). -/
def hideDiv (e : DivEngine) : DivEngine :=
  if e.st = .busy then e else { e with x := 0, y := 0, d := 0, k := 0, q := 0, m := 0, ph := .descend }

/-- Forget the hidden registers of an engine that is not BUSY (10_state.md R32). -/
def hideSqrt (e : SqrtEngine) : SqrtEngine :=
  if e.st = .busy then e else { e with x := 0, y := 0, ysq := 0, j := 0 }

/-- The state without what 10_state.md R32 calls unspecified. -/
def hide (s : State) : State :=
  { s with
    core :=
      { mul := hideMul s.core.mul, div := hideDiv s.core.div, sqrt := hideSqrt s.core.sqrt, cmdErr := s.core.cmdErr } }

/-- The states differ at most in hidden registers of engines that are not BUSY. -/
def SameButHidden (s t : State) : Prop := hide s = hide t

/-- Two steps answer alike: the same stop, or states that differ at most in hidden registers of engines that are not
BUSY. -/
def SameOutcome : Host.Outcome State Fault Refusal → Host.Outcome State Fault Refusal → Prop
  | .next s, .next t => SameButHidden s t
  | .fault f, .fault g => f = g
  | .refused r, .refused q => r = q
  | .next _, .fault _ | .next _, .refused _ | .fault _, .next _ | .fault _, .refused _
  | .refused _, .next _ | .refused _, .fault _ => False

end Sys2Proof.Safety
end

