-- ==== Sys2Proof/Certificates/Slice0/Obligations.lean ====
section
/-!
DEFINITION. The statements for the provers. Each docstring names the rules of spec/ that the statement formalises.
-/

open Sys2Proof Sys2Proof.Machine Sys2Proof.Safety

/-! ## Encoding (30_encoding.md) -/

/-- Every command's word decodes to it, with both fields at every value (R60, R61, R69). -/
def Obligations.DecodeOfEncodeIsTheCommand : Prop :=
  ∀ i : Instr, i.wellFormed = true → decode (encode i) = i ∧ decodeWord (encode i).toNat = .ok i

/-- Every 34-bit word is the word of the command it decodes to, so the four commands cover every word (R64, R69). -/
def Obligations.EncodeOfDecodeIsTheWord : Prop :=
  ∀ w : Cmd, encode (decode w) = w

/-- R69: `op = w[33:32]`, `a = w[31:16]`, `b = w[15:0]`, read here by division of the word as a number, select the
command; and `w & mask` is the `match` of the command's row of opcode_table.json. -/
def Obligations.OpFieldSelectsTheCommand : Prop :=
  ∀ w : Cmd,
    (w.toNat / 2 ^ 32 = 0 → decode w = .mul (BitVec.ofNat 16 (w.toNat / 2 ^ 16)) (BitVec.ofNat 16 w.toNat)) ∧
    (w.toNat / 2 ^ 32 = 1 → decode w = .div (BitVec.ofNat 16 (w.toNat / 2 ^ 16)) (BitVec.ofNat 16 w.toNat)) ∧
    (w.toNat / 2 ^ 32 = 2 → decode w = .sqrt (BitVec.ofNat 16 (w.toNat / 2 ^ 16)) (BitVec.ofNat 16 w.toNat)) ∧
    (w.toNat / 2 ^ 32 = 3 → decode w = .reserved (BitVec.ofNat 16 (w.toNat / 2 ^ 16)) (BitVec.ofNat 16 w.toNat)) ∧
    w &&& tableMask = (decode w).tableMatch

/-- R68: the example encodings, each word as the table writes it. -/
def Obligations.ExampleWordsDecode : Prop :=
  decode 0x0000C000A#34 = .mul 12 10 ∧
  decode 0x000060005#34 = .mul 6 5 ∧
  decode 0x1001E0004#34 = .div 30 4 ∧
  decode 0x200190000#34 = .sqrt 25 0 ∧
  decode 0x200640000#34 = .sqrt 100 0 ∧
  decode 0x100050000#34 = .div 5 0 ∧
  decode 0x300000000#34 = .reserved 0 0

/-- A number that needs more than the 34 wires of `CMD` is no command, and a host step that presents it is refused
(R60, R65). THE MODEL'S CHOICE: that the refusal is a stop (assumption 14). -/
def Obligations.WiderWordsAreRefused : Prop :=
  ∀ (w : Nat) (s : State), 2 ^ 34 ≤ w →
    decodeWord w = .error (.wordTooWide w) ∧
    (HostRuns (.cmd w) s → step s = .refused (.wordTooWide w))

/-- R63: any `B` of an accepted SQRT command selects the same operation and gives the same state; and no decoder refuses
a SQRT word for its `B`. -/
def Obligations.SqrtIgnoresB : Prop :=
  (∀ (a b b' : Word) (s : State), ready .sqrt s.core = true → exec (.sqrt a b) s = exec (.sqrt a b') s) ∧
  (∀ w : Nat, 2 * 2 ^ 32 ≤ w → w < 3 * 2 ^ 32 →
    decodeWord w = .ok (.sqrt (BitVec.ofNat 16 (w / 2 ^ 16)) (BitVec.ofNat 16 w)))

/-! ## Command acceptance (40_command.md, 60_exceptions.md) -/

/-- R80, R81, R103: MUL to an IDLE or DONE engine makes it BUSY with every hidden register written and NOVALUE in its
result register; nothing else changes. -/
def Obligations.MulIsAccepted : Prop :=
  ∀ (a b : Word) (s : State), s.core.mul.st = .idle ∨ s.core.mul.st = .done →
    exec (.mul a b) s = .next
      { s with
        core := { s.core with mul := { st := .busy, y := b, sx := a, acc := 0#17, i := 0#4, result := none } } }

/-- R80, R81, R123: DIV with a nonzero divisor to an IDLE or DONE engine makes it BUSY with every hidden register
written and NOVALUE in its result register; nothing else changes. -/
def Obligations.DivIsAccepted : Prop :=
  ∀ (a b : Word) (s : State), s.core.div.st = .idle ∨ s.core.div.st = .done → b ≠ 0#16 →
    exec (.div a b) s = .next
      { s with
        core :=
          { s.core with
            div :=
              { st := .busy, x := a, y := b, d := BitVec.ofNat 17 b.toNat, k := 0#5, q := 0#16, m := 0#16,
                ph := .descend, result := none } } }

/-- R80, R81, R143: SQRT, with any `B`, to an IDLE or DONE engine makes it BUSY with every hidden register written and
NOVALUE in its result register; nothing else changes. -/
def Obligations.SqrtIsAccepted : Prop :=
  ∀ (a b : Word) (s : State), s.core.sqrt.st = .idle ∨ s.core.sqrt.st = .done →
    exec (.sqrt a b) s = .next
      { s with
        core :=
          { s.core with sqrt := { st := .busy, x := a, y := 0#8, ysq := 0#16, j := 7#3, result := none } } }

/-- R64, R160 cause 2: a reserved command, whatever `A`, `B` and the engines, starts no engine, changes no engine, sets
`CMD_ERR` and records the whole word; nothing else changes. -/
def Obligations.ReservedSetsCmdErr : Prop :=
  ∀ (a b : Word) (s : State),
    exec (.reserved a b) s = .next
      { s with
        core := { s.core with cmdErr := true }
        faults := s.faults ++ [.reservedOp (0b11#2 ++ a ++ b)] }

/-- R126, R160 cause 1: division by zero, to an IDLE or DONE engine, puts DIV in FAULT with NOVALUE in its result register
and records the cause and `A`; nothing else changes, because a fault is no trap (R163), but the hidden DIV registers, which
R32 leaves unspecified outside BUSY: they are free values, of which nothing is said. -/
def Obligations.DivByZeroFaults : Prop :=
  ∀ (a : Word) (s : State), s.core.div.st = .idle ∨ s.core.div.st = .done →
    ∃ d : DivEngine, d.st = .fault ∧ d.result = none ∧
      exec (.div a 0#16) s = .next
        { s with
          core := { s.core with div := d }
          faults := s.faults ++ [.divByZero a] }

/-- R80, R160 cause 3: a command to a BUSY or FAULT engine sets `CMD_ERR` and records the engine and the whole word;
the engine, and everything else, is unchanged, and the command is lost. -/
def Obligations.CommandToBusyOrFaultedEngineIsRefused : Prop :=
  ∀ (a b : Word) (s : State),
    (s.core.mul.st = .busy ∨ s.core.mul.st = .fault →
      exec (.mul a b) s = .next
        { s with
          core := { s.core with cmdErr := true }
          faults := s.faults ++ [.engineNotReady .mul (0b00#2 ++ a ++ b)] }) ∧
    (s.core.div.st = .busy ∨ s.core.div.st = .fault →
      exec (.div a b) s = .next
        { s with
          core := { s.core with cmdErr := true }
          faults := s.faults ++ [.engineNotReady .div (0b01#2 ++ a ++ b)] }) ∧
    (s.core.sqrt.st = .busy ∨ s.core.sqrt.st = .fault →
      exec (.sqrt a b) s = .next
        { s with
          core := { s.core with cmdErr := true }
          faults := s.faults ++ [.engineNotReady .sqrt (0b10#2 ++ a ++ b)] })

/-- Every command, in every state, is answered by a next state: no command is privileged (R166), and a fault is no trap
(R163). -/
def Obligations.EveryCommandIsAnswered : Prop :=
  ∀ (i : Instr) (s : State), ∃ t, exec i s = .next t

/-- R162: the checks in their order, and at most one fault per command: what a command appends to the record; an engine
step appends nothing; cause 4 comes only from a host's result read; and no step appends two entries. -/
def Obligations.CommandFaultsInPriorityOrder : Prop :=
  (∀ (e : Engine) (s : State), (engineStep e s).faults = s.faults) ∧
  (∀ (s t : State) (e : Engine), step s = .next t → t.faults = s.faults ++ [.resultNotReady e] →
    ∃ r, HostRuns (.rd e r) s) ∧
  (∀ s t : State, step s = .next t → t.faults.length ≤ s.faults.length + 1) ∧
  ∀ (i : Instr) (s t : State), exec i s = .next t →
    t.faults = s.faults ++
      (match i with
        | .reserved _ _ => [.reservedOp (encode i)]
        | .mul _ _ =>
          if s.core.mul.st = .busy ∨ s.core.mul.st = .fault then [.engineNotReady .mul (encode i)] else []
        | .sqrt _ _ =>
          if s.core.sqrt.st = .busy ∨ s.core.sqrt.st = .fault then [.engineNotReady .sqrt (encode i)] else []
        | .div a b =>
          if s.core.div.st = .busy ∨ s.core.div.st = .fault then [.engineNotReady .div (encode i)]
          else if b = 0#16 then [.divByZero a]
          else [])

/-- The frame of all four commands (R80): a command changes no engine but the one it addresses, touches `CMD_ERR` only to
set it, adds at most one entry to the record, and leaves the host and the interleaving alone; an accepted one leaves
`CMD_ERR` and the record as they are. -/
def Obligations.CommandFrame : Prop :=
  ∀ (i : Instr) (s t : State), exec i s = .next t →
    t.host = s.host ∧ t.schedule = s.schedule ∧ t.draws = s.draws ∧
    (engineOf i ≠ some .mul → t.core.mul = s.core.mul) ∧
    (engineOf i ≠ some .div → t.core.div = s.core.div) ∧
    (engineOf i ≠ some .sqrt → t.core.sqrt = s.core.sqrt) ∧
    (t.core.cmdErr = s.core.cmdErr ∨ t.core.cmdErr = true) ∧
    (t.faults = s.faults ∨ ∃ f, t.faults = s.faults ++ [f]) ∧
    (accepts i s.core = true → t.core.cmdErr = s.core.cmdErr ∧ t.faults = s.faults)

/-- R82, R34: two accepted commands with the same `OP`, `A` and `B` leave their engine in the same state, whatever the
engine held before. -/
def Obligations.AcceptanceForgetsTheEngine : Prop :=
  ∀ (i : Instr) (s s' t t' : State),
    accepts i s.core = true → accepts i s'.core = true → exec i s = .next t → exec i s' = .next t' →
    (engineOf i = some .mul → t.core.mul = t'.core.mul) ∧
    (engineOf i = some .div → t.core.div = t'.core.div) ∧
    (engineOf i = some .sqrt → t.core.sqrt = t'.core.sqrt)

/-! ## MUL (41_multiply.md) -/

/-- R102: `k(x)` is the largest position in 0..15 with `x * 2^i <= 65535`; it is 15 for `x = 0` and `16 - bitlen(x)`
otherwise; by range of `x` it is as the table says; and `mul16(x, y) = x * (y mod 2^(k(x)+1))`. -/
def Obligations.MulValueHasItsClosedForm : Prop :=
  (∀ x : Nat, x ≤ 65535 →
    lastScanned x ≤ 15 ∧ x * 2 ^ lastScanned x ≤ 65535 ∧
    (∀ i, i ≤ 15 → x * 2 ^ i ≤ 65535 → i ≤ lastScanned x) ∧
    lastScanned x = (if x = 0 then 15 else 16 - (Nat.log2 x + 1)) ∧
    (x ≤ 1 → lastScanned x = 15) ∧
    (∀ n, 1 ≤ n → n ≤ 15 → 2 ^ n ≤ x → x < 2 ^ (n + 1) → lastScanned x = 15 - n)) ∧
  (∀ x y : Nat, x ≤ 65535 → y ≤ 65535 → mul16 x y = x * (y % 2 ^ (lastScanned x + 1)))

/-- R104: the largest value is 130305, at `x = 255, y = 511`, and it needs the 17th bit. (That (511, 255) reaches it too
is assumption 23.) -/
def Obligations.MulValueIsAtMost130305 : Prop :=
  (∀ x y : Nat, x ≤ 65535 → y ≤ 65535 → mul16 x y ≤ 130305) ∧ mul16 255 511 = 130305 ∧ 2 ^ 16 ≤ 130305

/-- R106: `mul16(x, y) = x * y` exactly when `x = 0` or `y < 2^(k(x)+1)`; so when the product is at most 65535, and for
every `x, y` in 0..255; products above 16 bits can be exact, and a truncated one can be 0. -/
def Obligations.MulIsExactWhenNoBitIsDiscarded : Prop :=
  (∀ x y : Nat, x ≤ 65535 → y ≤ 65535 → (mul16 x y = x * y ↔ x = 0 ∨ y < 2 ^ (lastScanned x + 1))) ∧
  (∀ x y : Nat, x ≤ 65535 → y ≤ 65535 → x * y ≤ 65535 → mul16 x y = x * y) ∧
  (∀ x y : Nat, x ≤ 255 → y ≤ 255 → mul16 x y = x * y) ∧
  mul16 3 21846 = 65538 ∧ mul16 255 511 = 130305 ∧ mul16 256 256 = 0

/-- The corner cases of R107, and that the result depends only on `y mod 2^(k(x)+1)`. -/
def Obligations.MulCornerCases : Prop :=
  (∀ x : Nat, x ≤ 65535 → mul16 x 0 = 0 ∧ mul16 0 x = 0 ∧ mul16 1 x = x ∧ mul16 x 1 = x) ∧
  mul16 65535 65535 = 65535 ∧ mul16 65535 2 = 0 ∧ mul16 2 65535 = 65534 ∧ mul16 2 32768 = 0 ∧ mul16 32768 3 = 32768 ∧
  (∀ x y z : Nat, x ≤ 65535 → y ≤ 65535 → z ≤ 65535 →
    y % 2 ^ (lastScanned x + 1) = z % 2 ^ (lastScanned x + 1) → mul16 x y = mul16 x z)

/-- R104: before every step of a BUSY MUL engine the invariants hold, so a step of one that meets them meets them again or
is DONE with the value. -/
def Obligations.MulStepKeepsItsRegisters : Prop :=
  ∀ (x y : Word) (e : MulEngine), MulBusy x y e →
    (e.i.toNat < lastScanned x.toNat → MulBusy x y (stepMul e)) ∧
    (e.i.toNat = lastScanned x.toNat → MulDone x y (stepMul e))

/-- R105: an accepted MUL completes in exactly `k(x) + 1` steps (16 for `x` in 0..1, 1 for `x >= 32768`), whatever `y`,
and then holds `mul16(x, y)`. -/
def Obligations.MulCompletesInExactlyItsSteps : Prop :=
  ∀ x y : Word,
    (∀ n, n ≤ lastScanned x.toNat → (Nat.iterate stepMul n (initMul x y)).st = .busy) ∧
    (Nat.iterate stepMul (lastScanned x.toNat + 1) (initMul x y)).st = .done ∧
    (Nat.iterate stepMul (lastScanned x.toNat + 1) (initMul x y)).result.map BitVec.toNat
      = some (mul16 x.toNat y.toNat) ∧
    (x.toNat ≤ 1 → lastScanned x.toNat + 1 = 16) ∧
    (32768 ≤ x.toNat → lastScanned x.toNat + 1 = 1)

/-! ## DIV (42_divide.md) -/

/-- R122: `div16(x, y) = floor(x / y)` for every `x` in 0..65535 and `y` in 1..65535; so it is at most `x`, and 0 exactly
when `y > x`. -/
def Obligations.DivValueIsTheFloorQuotient : Prop :=
  ∀ x y : Nat, x ≤ 65535 → 1 ≤ y → y ≤ 65535 →
    div16 x y = some (x / y) ∧ x / y ≤ x ∧ (div16 x y = some 0 ↔ y > x)

/-- `K(x, y)` is the least `K` with `y * 2^K > x`, and it has the closed form of R121; it is at most 16 (R124). -/
def Obligations.DoublingCountIsTheLeast : Prop :=
  ∀ x y : Nat, x ≤ 65535 → 1 ≤ y → y ≤ 65535 →
    x < y * 2 ^ doublings x y ∧
    (∀ n, x < y * 2 ^ n → doublings x y ≤ n) ∧
    doublings x y = (if y > x then 0 else Nat.log2 (x / y) + 1) ∧
    doublings x y ≤ 16

/-- R124: a step of a BUSY DIV engine that meets the invariants meets them again, or is DONE with the quotient. -/
def Obligations.DivStepKeepsItsRegisters : Prop :=
  ∀ (x y : Word) (e : DivEngine), DivBusy x y e →
    DivRuns x y (stepDiv e) ∧
    (DivDone x y (stepDiv e) ↔
      (e.ph = .descend ∧ e.k = 0#5 ∧ x.toNat < y.toNat) ∨ (e.ph = .ascend ∧ e.k = 1#5))

/-- R123, R124: no register of a BUSY DIV engine overflows and no remainder is negative, so every sum of a step is the exact
one, although the model's registers would wrap (assumption 7): a DESCEND step that doubles stores `2 * DIV.d` and
`DIV.K + 1`, within 131070 and 16; in ASCEND the remainder is `DIV.x - DIV.M`, `d'` is half of `DIV.d`, and the step stores
`d'`, `2 * DIV.q + b`, `DIV.M + b * d'` and `DIV.K - 1`. -/
def Obligations.DivRegistersStayInBounds : Prop :=
  ∀ (x y : Word) (e : DivEngine), DivBusy x y e →
    e.d.toNat ≤ 131070 ∧ e.k.toNat ≤ 16 ∧
    (e.ph = .descend → e.d.toNat ≤ e.x.toNat →
      stepDiv e = stepDivDescend e ∧
      (stepDivDescend e).d.toNat = 2 * e.d.toNat ∧ 2 * e.d.toNat ≤ 131070 ∧
      (stepDivDescend e).k.toNat = e.k.toNat + 1 ∧ e.k.toNat + 1 ≤ 16) ∧
    (e.ph = .ascend →
      e.m.toNat ≤ e.x.toNat ∧ (e.x - e.m).toNat = e.x.toNat - e.m.toNat ∧
      2 * e.dNext.toNat = e.d.toNat ∧ (e.quotientBit = true ↔ e.dNext.toNat ≤ e.x.toNat - e.m.toNat) ∧
      e.qNext.toNat = 2 * e.q.toNat + e.quotientBit.toNat ∧
      e.mNext.toNat = e.m.toNat + e.quotientBit.toNat * e.dNext.toNat ∧
      (stepDiv e).d = e.dNext ∧ (stepDiv e).q = e.qNext ∧ (stepDiv e).m = e.mNext ∧
      (stepDiv e).k.toNat + 1 = e.k.toNat)

/-- R125: an accepted DIV with `y >= 1` completes in exactly `2 * K(x, y) + 1` steps: `K` that double, one that finds
`DIV.d > DIV.x`, and `K` in ASCEND; 1 when `y > x`, at most 33, and 33 for `x = 65535, y = 1`; and then holds
`div16(x, y)`. -/
def Obligations.DivCompletesInExactlyItsSteps : Prop :=
  (∀ x y : Word, y ≠ 0#16 →
    (∀ n, n ≤ 2 * doublings x.toNat y.toNat → (Nat.iterate stepDiv n (initDiv x y)).st = .busy) ∧
    (Nat.iterate stepDiv (2 * doublings x.toNat y.toNat + 1) (initDiv x y)).st = .done ∧
    (Nat.iterate stepDiv (2 * doublings x.toNat y.toNat + 1) (initDiv x y)).result.map BitVec.toNat
      = div16 x.toNat y.toNat ∧
    (∀ n, n ≤ doublings x.toNat y.toNat → (Nat.iterate stepDiv n (initDiv x y)).ph = .descend ∧
      (Nat.iterate stepDiv n (initDiv x y)).d.toNat = y.toNat * 2 ^ n) ∧
    (∀ n, doublings x.toNat y.toNat < n → n ≤ 2 * doublings x.toNat y.toNat →
      (Nat.iterate stepDiv n (initDiv x y)).ph = .ascend) ∧
    (x.toNat < y.toNat → 2 * doublings x.toNat y.toNat + 1 = 1) ∧
    2 * doublings x.toNat y.toNat + 1 ≤ 33) ∧
  2 * doublings 65535 1 + 1 = 33

/-! ## SQRT (43_sqrt.md) -/

/-- R142: `isqrt16(x)^2 <= x < (isqrt16(x) + 1)^2` for every `x` in 0..65535, and the result is at most 255. -/
def Obligations.SqrtValueIsTheFloorRoot : Prop :=
  ∀ x : Nat, x ≤ 65535 →
    isqrt16 x ^ 2 ≤ x ∧ x < (isqrt16 x + 1) ^ 2 ∧ isqrt16 x = Nat.sqrt x ∧ isqrt16 x ≤ 255

/-- R144: a step of a BUSY SQRT engine that meets the invariants meets them again at the next position, or, at position 0,
is DONE with the root. -/
def Obligations.SqrtStepKeepsItsRegisters : Prop :=
  ∀ (x : Word) (e : SqrtEngine), SqrtBusy x e →
    (e.j ≠ 0#3 → SqrtBusy x (stepSqrt e) ∧ (stepSqrt e).j = e.j - 1) ∧
    (e.j = 0#3 → SqrtDone x (stepSqrt e))

/-- R143, R144: the shift-and-add square is the candidate's square, the candidate is `y + 2^j`, and neither overflows:
`csq = c * c <= 65025`. -/
def Obligations.SqrtCandidateSquareIsExact : Prop :=
  ∀ (x : Word) (e : SqrtEngine), SqrtBusy x e →
    e.candidate.toNat = e.y.toNat + 2 ^ e.j.toNat ∧
    e.candidateSq.toNat = e.candidate.toNat * e.candidate.toNat ∧
    e.candidateSq.toNat ≤ 65025

/-- R145: an accepted SQRT completes in exactly 8 steps for every `x`, and then holds `isqrt16(x)`. -/
def Obligations.SqrtCompletesInExactlyEightSteps : Prop :=
  ∀ x : Word,
    (∀ n, n ≤ 7 → (Nat.iterate stepSqrt n (initSqrt x)).st = .busy) ∧
    (Nat.iterate stepSqrt 8 (initSqrt x)).st = .done ∧
    (Nat.iterate stepSqrt 8 (initSqrt x)).result.map BitVec.toNat = some (isqrt16 x.toNat)

/-! ## Agents and steps (40_command.md, 20_memory.md, 70_reset_and_hazards.md) -/

/-- The agent that moves has an enabled step: an engine is BUSY, the host has a statement (R80, R83). None moves exactly
when none is enabled. THE MODEL'S CHOICE: how the agent is picked (assumption 2). -/
def Obligations.OnlyEnabledAgentsMove : Prop :=
  ∀ s : State,
    (∀ e, nextAgent s = some (.engine e) → s.core.status e = .busy) ∧
    (nextAgent s = some .host → ∃ st, s.host.current = some st) ∧
    (nextAgent s = none ↔ s.host.current = none ∧ ∀ e, s.core.status e ≠ .busy)

/-- R56, R80: any BUSY engine may step at any point, and so may a host that has a statement: scheduled next, it moves, and
the step is that engine's step, or that statement. THE MODEL'S CHOICE: that the interleaving is the field `schedule`
(assumption 2). -/
def Obligations.AnyEnabledAgentMayMoveNext : Prop :=
  ∀ (s : State) (rest : List Agent),
    (∀ e, s.core.status e = .busy →
      step { s with schedule := .engine e :: rest }
        = .next (engineStep e { s with schedule := rest, draws := s.draws + 1 })) ∧
    (∀ st, s.host.current = some st →
      step { s with schedule := .host :: rest }
        = runStmt st { s with schedule := rest, draws := s.draws + 1 })

/-- R86, R83: an engine's step is its step rule on its own engine alone, all of it but the hidden registers of an engine that
has thereby left BUSY (R32; `hideMul` and its like forget those); it changes no other engine, not `CMD_ERR`, not the fault
record, not the host. -/
def Obligations.EngineStepTouchesItsEngineAlone : Prop :=
  ∀ (e : Engine) (s : State), nextAgent s = some (.engine e) →
    ∃ t, step s = .next t ∧
      (e = .mul → hideMul t.core.mul = hideMul (stepMul s.core.mul)) ∧ (e ≠ .mul → t.core.mul = s.core.mul) ∧
      (e = .div → hideDiv t.core.div = hideDiv (stepDiv s.core.div)) ∧ (e ≠ .div → t.core.div = s.core.div) ∧
      (e = .sqrt → hideSqrt t.core.sqrt = hideSqrt (stepSqrt s.core.sqrt)) ∧ (e ≠ .sqrt → t.core.sqrt = s.core.sqrt) ∧
      t.core.cmdErr = s.core.cmdErr ∧ t.faults = s.faults ∧ t.host = s.host

/-- R188: when no engine is BUSY and the host has nothing to run, nothing changes. THE MODEL'S CHOICE: that such a state
still answers a step (assumption 3). -/
def Obligations.IdleMachineKeepsItsState : Prop :=
  ∀ s : State, s.host.current = none → (∀ e, s.core.status e ≠ .busy) → step s = .next s

/-- A step runs the decoded command: presenting a word that decodes to `i` is `exec i`, after the model has moved the host
to its next statement, updated its permissions (`afterPresent`) and used up one entry of the schedule and one number of
the counter (`tick`). THE MODEL'S CHOICE: what the step adds around `exec` (assumptions 1, 2, 18, 28 and
29). -/
def Obligations.StepRunsTheDecodedCommand : Prop :=
  ∀ (s : State) (w : Nat) (i : Instr),
    HostRuns (.cmd w) s → decodeWord w = .ok i → i.wellFormed = true →
    step s = exec i (afterPresent i s.tick)

/-- R66: the four command statements present their word: the step is the command with the operands' values. THE MODEL'S
CHOICE: what the step adds around `exec`, which is `afterPresent` and `tick` (assumptions 1, 2, 18, 28 and 29). -/
def Obligations.CommandStatementsPresentTheirWord : Prop :=
  ∀ (s : State) (a b : Operand) (x y : Word),
    evalOperand a s.host.vars = .next x → evalOperand b s.host.vars = .next y →
    (HostRuns (.mul a b) s → step s = exec (.mul x y) (afterPresent (.mul x y) s.tick)) ∧
    (HostRuns (.div a b) s → step s = exec (.div x y) (afterPresent (.div x y) s.tick)) ∧
    (HostRuns (.sqrt a) s → step s = exec (.sqrt x 0#16) (afterPresent (.sqrt x 0#16) s.tick)) ∧
    (HostRuns (.rsvd a b) s → step s = exec (.reserved x y) (afterPresent (.reserved x y) s.tick))

/-- R11: a command statement with an operand above 65535, a number or the value of a variable, is refused; it is never
truncated. THE MODEL'S CHOICE: that the first operand's stop is the one reported when both are bad (assumption 30). -/
def Obligations.OperandAbove65535IsRefused : Prop :=
  ∀ (s : State) (o a b : Operand) (n : Nat) (x : Word),
    65535 < n → (o = .lit n ∨ ∃ v, o = .var v ∧ getVar v s.host.vars = some n) →
    evalOperand a s.host.vars = .next x →
    (HostRuns (.sqrt o) s ∨ HostRuns (.mul o b) s ∨ HostRuns (.div o b) s ∨ HostRuns (.rsvd o b) s ∨
      HostRuns (.mul a o) s ∨ HostRuns (.div a o) s ∨ HostRuns (.rsvd a o) s) →
    step s = .refused (.operandOutOfRange n)

/-- A command statement that reads an unwritten host variable stops with a fault of the host program, as R167 calls
reading the variable of a failed result read. THE MODEL'S CHOICE: that reading any unwritten variable stops the machine
(assumption 17), and that the first operand's stop is the one reported when both are bad (assumption 30). -/
def Obligations.UnwrittenVariableFaults : Prop :=
  ∀ (s : State) (v : Nat) (a b : Operand) (x : Word),
    getVar v s.host.vars = none → evalOperand a s.host.vars = .next x →
    (HostRuns (.sqrt (.var v)) s ∨ HostRuns (.mul (.var v) b) s ∨ HostRuns (.div (.var v) b) s ∨
      HostRuns (.rsvd (.var v) b) s ∨ HostRuns (.mul a (.var v)) s ∨ HostRuns (.div a (.var v)) s ∨
      HostRuns (.rsvd a (.var v)) s) →
    step s = .fault (.unsetVariable v)

/-- Nothing but the host's operands and words stops a step (R11, R60, R167): in every state the step answers a next state,
or the host used an unwritten variable, an operand above 65535 or a word of more than 34 bits. THE MODEL'S CHOICE: that a
number wider than the port is refused by the step (assumption 14). -/
def Obligations.OnlyHostOperandsStopAStep : Prop :=
  ∀ s : State,
    (∃ t, step s = .next t) ∨
    (∃ v, getVar v s.host.vars = none ∧ step s = .fault (.unsetVariable v)) ∨
    (∃ n, 65535 < n ∧ step s = .refused (.operandOutOfRange n)) ∨
    (∃ w, 2 ^ 34 ≤ w ∧ step s = .refused (.wordTooWide w))

/-! ## Status and result reads -/

/-- R22: every bit of `STATUS`, and its legal combinations. -/
def Obligations.StatusBitsAreTheEngineStates : Prop :=
  ∀ c : CoreState,
    ((statusWord c).getLsbD 0 = true ↔ c.mul.st = .busy) ∧
    ((statusWord c).getLsbD 1 = true ↔ c.mul.st = .done) ∧
    ((statusWord c).getLsbD 2 = true ↔ c.div.st = .busy) ∧
    ((statusWord c).getLsbD 3 = true ↔ c.div.st = .done) ∧
    ((statusWord c).getLsbD 4 = true ↔ c.div.st = .fault) ∧
    ((statusWord c).getLsbD 5 = true ↔ c.sqrt.st = .busy) ∧
    ((statusWord c).getLsbD 6 = true ↔ c.sqrt.st = .done) ∧
    ((statusWord c).getLsbD 7 = c.cmdErr) ∧
    ¬((statusWord c).getLsbD 0 = true ∧ (statusWord c).getLsbD 1 = true) ∧
    ¬((statusWord c).getLsbD 5 = true ∧ (statusWord c).getLsbD 6 = true) ∧
    ¬((statusWord c).getLsbD 2 = true ∧ (statusWord c).getLsbD 3 = true) ∧
    ¬((statusWord c).getLsbD 2 = true ∧ (statusWord c).getLsbD 4 = true) ∧
    ¬((statusWord c).getLsbD 3 = true ∧ (statusWord c).getLsbD 4 = true)

/-- R84, R53: a `STATUS` read gives the status word as it stood at the start of the step, and changes no state of the
block: a second read gives the same. -/
def Obligations.StatusReadChangesNothingOfTheBlock : Prop :=
  ∀ (s : State) (v : Nat), HostRuns (.rdstat v) s →
    ∃ t, step s = .next t ∧ getVar v t.host.vars = some (statusWord s.core).toNat ∧
      t.core = s.core ∧ t.faults = s.faults ∧ statusWord t.core = statusWord s.core ∧
      t.host.script = s.host.script ∧ t.host.index = s.host.index + 1 ∧
      (∀ u, u ≠ v → getVar u t.host.vars = getVar u s.host.vars)

/-- R85: a result read of a DONE engine gives its register; any other records cause 4 and gives no value: an unwritten
host variable stays unwritten (R167). No read changes the block. -/
def Obligations.ResultReadGivesAValueOnlyWhenDone : Prop :=
  ∀ (s : State) (e : Engine) (r : Nat), HostRuns (.rd e r) s →
    ∃ t, step s = .next t ∧ t.core = s.core ∧
      (∀ n, s.core.status e = .done → s.core.resultReg e = some n →
        getVar r t.host.vars = some n ∧ t.faults = s.faults) ∧
      (s.core.status e ≠ .done →
        t.faults = s.faults ++ [.resultNotReady e] ∧ (getVar r s.host.vars = none → getVar r t.host.vars = none))

/-- THE MODEL'S CHOICE (assumption 10), from R167: a result read that gives no value leaves the host variable unwritten even
if it held a value before; no other variable changes, and the host goes on with its next statement. -/
def Obligations.FailedReadUnsetsTheVariable : Prop :=
  ∀ (s : State) (e : Engine) (r : Nat), HostRuns (.rd e r) s → s.core.status e ≠ .done →
    ∃ t, step s = .next t ∧ getVar r t.host.vars = none ∧
      (∀ u, u ≠ r → getVar u t.host.vars = getVar u s.host.vars) ∧
      t.host.script = s.host.script ∧ t.host.index = s.host.index + 1

/-- R67: one turn of `WAIT E` reads `STATUS` and stays at its statement unless `E` is DONE, or DIV is in FAULT for
`E = DIV`; `CMD_ERR` does not end it; the block is unchanged. THE MODEL'S CHOICE: that the read and the branch are one
host step (assumption 11) and which variable is written (assumption 12). -/
def Obligations.WaitEndsOnDoneOrDivFaultAlone : Prop :=
  ∀ (s : State) (e : Engine) (v : Nat), HostRuns (.poll e v) s →
    ∃ t, step s = .next t ∧ t.core = s.core ∧ t.faults = s.faults ∧ t.host.script = s.host.script ∧
      getVar v t.host.vars = some (statusWord s.core).toNat ∧
      (s.core.status e = .done ∨ (e = .div ∧ s.core.div.st = .fault) → t.host.index = s.host.index + 1) ∧
      (¬(s.core.status e = .done ∨ (e = .div ∧ s.core.div.st = .fault)) → t.host.index = s.host.index)

/-! ## Reset -/

/-- R33, R182: the state a model starts from, in the values the spec gives: every engine IDLE, `CMD_ERR` 0, `STATUS` 8'h00,
every result register NOVALUE, an empty fault record; so no operation is in flight. R33 leaves the hidden registers
unspecified, so nothing is said of them. -/
def Obligations.ResetStateIsAsSpecified : Prop :=
  (∀ e, State.reset.core.status e = .idle ∧ State.reset.core.resultReg e = none) ∧
  State.reset.core.cmdErr = false ∧ statusWord State.reset.core = 0x00#8 ∧ State.reset.faults = []

/-- R180, R181: a RESET step, from any state, puts every engine in IDLE with NOVALUE, clears `CMD_ERR`, makes `STATUS`
read 8'h00, abandons what is in flight, and leaves the fault record as it is: nothing added, nothing cleared. -/
def Obligations.ResetStepClearsTheBlock : Prop :=
  ∀ s : State, Resets s →
    ∃ t, step s = .next t ∧ (∀ e, t.core.status e = .idle ∧ t.core.resultReg e = none) ∧
      t.core.cmdErr = false ∧ statusWord t.core = 0x00#8 ∧ t.faults = s.faults ∧
      t.host.script = s.host.script ∧ t.host.vars = s.host.vars ∧ t.host.index = s.host.index + 1

/-! ## Whole-machine rules -/

/-- `Inv` holds after reset: MUL and SQRT are not in FAULT, and no result register holds a value outside DONE (R21, R27, R33).
THE MODEL'S CHOICE: two conjuncts of `Inv` are about the model's own host state, the duty flags (assumptions 18 and 29) and the sorted
list of variables (assumption 13). The hidden registers' reset values (assumption 4) do not matter to it. -/
def Obligations.ResetMeetsTheInvariant : Prop :=
  Inv State.reset

/-- Every step keeps `Inv`: MUL and SQRT are never in FAULT (R21), a result register holds a value only in DONE and then
an operation's value (R24 to R27), a BUSY engine's registers are those of its operation (R104, R124, R144; so DIV is
never BUSY with a zero divisor, R29), the host's permissions are right (R183, R184), and variables are listed in order.
THE MODEL'S CHOICE: the last two are about the model's own host state, the duty flags by which it tracks R183 and R184
(assumptions 18 and 29) and the sorted list of variables (assumption 13). -/
def Obligations.StepKeepsTheInvariant : Prop :=
  ∀ s t : State, Inv s → step s = .next t → Inv t

/-- R88, R89: an accepted MUL is under way with its operands (`MulRuns`); no step of any agent ends that, commands to the
BUSY engine included, but RESET and a command to the DONE engine; and whenever the engine is DONE its result reads
`mul16(x, y)`. (That it comes to be DONE, under fairness, is `FairRunsReachTheValue`.) -/
def Obligations.MulOperationSurvivesEveryInterleaving : Prop :=
  ∀ x y : Word,
    (∀ s : State, s.core.mul.st = .idle ∨ s.core.mul.st = .done →
      ∃ t, exec (.mul x y) s = .next t ∧ t.core.mul = initMul x y ∧ MulRuns x y t.core.mul) ∧
    (∀ s t : State, MulRuns x y s.core.mul → step s = .next t → ¬ Resets s →
      (s.core.mul.st = .done → ¬ Commands .mul s) → MulRuns x y t.core.mul) ∧
    (∀ s : State, MulRuns x y s.core.mul → s.core.mul.st = .done →
      readResult .mul s.core = some (mul16 x.toNat y.toNat))

/-- R88, R89: the same of DIV by a nonzero divisor, and `div16(x, y)`. -/
def Obligations.DivOperationSurvivesEveryInterleaving : Prop :=
  ∀ x y : Word,
    (∀ s : State, s.core.div.st = .idle ∨ s.core.div.st = .done → y ≠ 0#16 →
      ∃ t, exec (.div x y) s = .next t ∧ t.core.div = initDiv x y ∧ DivRuns x y t.core.div) ∧
    (∀ s t : State, DivRuns x y s.core.div → step s = .next t → ¬ Resets s →
      (s.core.div.st = .done → ¬ Commands .div s) → DivRuns x y t.core.div) ∧
    (∀ s : State, DivRuns x y s.core.div → s.core.div.st = .done →
      readResult .div s.core = div16 x.toNat y.toNat)

/-- R88, R89: the same of SQRT, with any `B`, and `isqrt16(x)`. -/
def Obligations.SqrtOperationSurvivesEveryInterleaving : Prop :=
  ∀ x : Word,
    (∀ (b : Word) (s : State), s.core.sqrt.st = .idle ∨ s.core.sqrt.st = .done →
      ∃ t, exec (.sqrt x b) s = .next t ∧ t.core.sqrt = initSqrt x ∧ SqrtRuns x t.core.sqrt) ∧
    (∀ s t : State, SqrtRuns x s.core.sqrt → step s = .next t → ¬ Resets s →
      (s.core.sqrt.st = .done → ¬ Commands .sqrt s) → SqrtRuns x t.core.sqrt) ∧
    (∀ s : State, SqrtRuns x s.core.sqrt → s.core.sqrt.st = .done →
      readResult .sqrt s.core = some (isqrt16 x.toNat))

/-- R55: once an engine is DONE, every later read gives the same value, up to a command to that engine or a RESET. (A
division by zero ends it too although it is not accepted: assumption 24.) -/
def Obligations.DoneResultStaysUntilCommandOrReset : Prop :=
  ∀ (e : Engine) (s t : State), s.core.status e = .done → step s = .next t → ¬ Resets s → ¬ Commands e s →
    t.core.status e = .done ∧ readResult e t.core = readResult e s.core

/-- R161, R162, R164: no step, RESET included, clears or changes what is recorded; a step records at most one fault; and a
state with a fault recorded is followed by no successful end. -/
def Obligations.FaultRecordOnlyGrows : Prop :=
  ∀ s t : State, step s = .next t →
    (t.faults = s.faults ∨ ∃ f, t.faults = s.faults ++ [f]) ∧ (s.faults ≠ [] → ¬ Successful t)

/-- R164, R23: `CMD_ERR` and the DIV engine's FAULT stay until RESET. -/
def Obligations.FaultBitsAreStickyUntilReset : Prop :=
  ∀ s t : State, step s = .next t → ¬ Resets s →
    (s.core.cmdErr = true → t.core.cmdErr = true) ∧ (s.core.div.st = .fault → t.core.div.st = .fault)

/-- R183, R184: a host that keeps its duties meets no cause 4, and cause 3 only from a DIV engine in FAULT. THE MODEL'S
CHOICE: how the duties are tracked (assumptions 18 and 29). -/
def Obligations.HostDutyAvoidsProtocolFaults : Prop :=
  ∀ (s t : State) (st : HostStmt), Inv s → HostRuns st s → keepsDuty s.host st = true → step s = .next t →
    t.faults = s.faults ∨ (∃ a, t.faults = s.faults ++ [.divByZero a]) ∨
    (∃ w, t.faults = s.faults ++ [.reservedOp w]) ∨
    (s.core.div.st = .fault ∧ ∃ w, t.faults = s.faults ++ [.engineNotReady .div w])

/-- R32, R34: hidden registers of an engine that is not BUSY show in nothing: states that differ only there have the same
`STATUS` and the same results to read, and step to states that differ only there. -/
def Obligations.HiddenRegistersShowOnlyWhileBusy : Prop :=
  ∀ s t : State, SameButHidden s t →
    SameOutcome (step s) (step t) ∧ statusWord s.core = statusWord t.core ∧
    ∀ e, readResult e s.core = readResult e t.core

/-- R87: under weak fairness every BUSY engine completes, unless a RESET comes first. (Fairness is a hypothesis on the run,
assumption 27.) -/
def Obligations.FairRunsComplete : Prop :=
  ∀ r : Nat → State, IsRun r → Inv (r 0) → WeaklyFair r →
    ∀ e n, (r n).core.status e = .busy → ∃ m, n ≤ m ∧ ((r (m + 1)).core.status e = .done ∨ Resets (r m))

/-- R87, R88: under weak fairness an operation that is under way arrives: its value comes to be read, unless a RESET comes
first. (Fairness is a hypothesis on the run, assumption 27.) -/
def Obligations.FairRunsReachTheValue : Prop :=
  ∀ r : Nat → State, IsRun r → Inv (r 0) → WeaklyFair r →
    ∀ n,
      (∀ x y, MulRuns x y (r n).core.mul →
        ∃ m, n ≤ m ∧ (readResult .mul (r m).core = some (mul16 x.toNat y.toNat) ∨ Resets (r m))) ∧
      (∀ x y, DivRuns x y (r n).core.div →
        ∃ m, n ≤ m ∧ (readResult .div (r m).core = some (x.toNat / y.toNat) ∨ Resets (r m))) ∧
      (∀ x, SqrtRuns x (r n).core.sqrt →
        ∃ m, n ≤ m ∧ (readResult .sqrt (r m).core = some (isqrt16 x.toNat) ∨ Resets (r m)))
end

