-- ==== Sys2Proof/Laws/State.lean ====
section
/-!
SUPPORT. One lemma per field per update, so that no later proof unfolds a record update.
-/
namespace Sys2Proof.Laws

open Sys2Proof.Machine

variable (s : State)

/-! ## Writing an engine -/

@[simp] theorem setMul_mul (e : MulEngine) : (s.setMul e).core.mul = e := rfl
@[simp] theorem setMul_div (e : MulEngine) : (s.setMul e).core.div = s.core.div := rfl
@[simp] theorem setMul_sqrt (e : MulEngine) : (s.setMul e).core.sqrt = s.core.sqrt := rfl
@[simp] theorem setMul_cmdErr (e : MulEngine) : (s.setMul e).core.cmdErr = s.core.cmdErr := rfl
@[simp] theorem setMul_faults (e : MulEngine) : (s.setMul e).faults = s.faults := rfl
@[simp] theorem setMul_host (e : MulEngine) : (s.setMul e).host = s.host := rfl
@[simp] theorem setMul_schedule (e : MulEngine) : (s.setMul e).schedule = s.schedule := rfl
@[simp] theorem setMul_draws (e : MulEngine) : (s.setMul e).draws = s.draws := rfl

@[simp] theorem setDiv_div (e : DivEngine) : (s.setDiv e).core.div = e := rfl
@[simp] theorem setDiv_mul (e : DivEngine) : (s.setDiv e).core.mul = s.core.mul := rfl
@[simp] theorem setDiv_sqrt (e : DivEngine) : (s.setDiv e).core.sqrt = s.core.sqrt := rfl
@[simp] theorem setDiv_cmdErr (e : DivEngine) : (s.setDiv e).core.cmdErr = s.core.cmdErr := rfl
@[simp] theorem setDiv_faults (e : DivEngine) : (s.setDiv e).faults = s.faults := rfl
@[simp] theorem setDiv_host (e : DivEngine) : (s.setDiv e).host = s.host := rfl
@[simp] theorem setDiv_schedule (e : DivEngine) : (s.setDiv e).schedule = s.schedule := rfl
@[simp] theorem setDiv_draws (e : DivEngine) : (s.setDiv e).draws = s.draws := rfl

@[simp] theorem setSqrt_sqrt (e : SqrtEngine) : (s.setSqrt e).core.sqrt = e := rfl
@[simp] theorem setSqrt_mul (e : SqrtEngine) : (s.setSqrt e).core.mul = s.core.mul := rfl
@[simp] theorem setSqrt_div (e : SqrtEngine) : (s.setSqrt e).core.div = s.core.div := rfl
@[simp] theorem setSqrt_cmdErr (e : SqrtEngine) : (s.setSqrt e).core.cmdErr = s.core.cmdErr := rfl
@[simp] theorem setSqrt_faults (e : SqrtEngine) : (s.setSqrt e).faults = s.faults := rfl
@[simp] theorem setSqrt_host (e : SqrtEngine) : (s.setSqrt e).host = s.host := rfl
@[simp] theorem setSqrt_schedule (e : SqrtEngine) : (s.setSqrt e).schedule = s.schedule := rfl
@[simp] theorem setSqrt_draws (e : SqrtEngine) : (s.setSqrt e).draws = s.draws := rfl

/-! ## Engine states by name -/

@[simp] theorem status_mul (c : CoreState) : c.status .mul = c.mul.st := rfl
@[simp] theorem status_div (c : CoreState) : c.status .div = c.div.st := rfl
@[simp] theorem status_sqrt (c : CoreState) : c.status .sqrt = c.sqrt.st := rfl
@[simp] theorem resultReg_mul (c : CoreState) : c.resultReg .mul = c.mul.result.map BitVec.toNat := rfl
@[simp] theorem resultReg_div (c : CoreState) : c.resultReg .div = c.div.result.map BitVec.toNat := rfl
@[simp] theorem resultReg_sqrt (c : CoreState) : c.resultReg .sqrt = c.sqrt.result.map BitVec.toNat := rfl

/-! ## Unspecified hidden registers: the status and the result are as given -/

@[simp] theorem freeMul_st (st : EngineStatus) (r : Option Wide) (n : Nat) : (freeMul st r n).st = st := rfl
@[simp] theorem freeMul_result (st : EngineStatus) (r : Option Wide) (n : Nat) : (freeMul st r n).result = r := rfl
@[simp] theorem freeDiv_st (st : EngineStatus) (r : Option Word) (n : Nat) : (freeDiv st r n).st = st := rfl
@[simp] theorem freeDiv_result (st : EngineStatus) (r : Option Word) (n : Nat) : (freeDiv st r n).result = r := rfl
@[simp] theorem freeSqrt_st (st : EngineStatus) (r : Option Root) (n : Nat) : (freeSqrt st r n).st = st := rfl
@[simp] theorem freeSqrt_result (st : EngineStatus) (r : Option Root) (n : Nat) : (freeSqrt st r n).result = r := rfl

@[simp] theorem settleMul_st (n : Nat) (e : MulEngine) : (settleMul n e).st = e.st := by
  unfold settleMul; split <;> rfl
@[simp] theorem settleMul_result (n : Nat) (e : MulEngine) : (settleMul n e).result = e.result := by
  unfold settleMul; split <;> rfl
@[simp] theorem settleDiv_st (n : Nat) (e : DivEngine) : (settleDiv n e).st = e.st := by
  unfold settleDiv; split <;> rfl
@[simp] theorem settleDiv_result (n : Nat) (e : DivEngine) : (settleDiv n e).result = e.result := by
  unfold settleDiv; split <;> rfl
@[simp] theorem settleSqrt_st (n : Nat) (e : SqrtEngine) : (settleSqrt n e).st = e.st := by
  unfold settleSqrt; split <;> rfl
@[simp] theorem settleSqrt_result (n : Nat) (e : SqrtEngine) : (settleSqrt n e).result = e.result := by
  unfold settleSqrt; split <;> rfl

/-- An engine that is still BUSY keeps every register its step wrote. -/
theorem settleMul_of_busy {e : MulEngine} (h : e.st = .busy) (n : Nat) : settleMul n e = e := if_pos h
theorem settleDiv_of_busy {e : DivEngine} (h : e.st = .busy) (n : Nat) : settleDiv n e = e := if_pos h
theorem settleSqrt_of_busy {e : SqrtEngine} (h : e.st = .busy) (n : Nat) : settleSqrt n e = e := if_pos h

/-- An engine that is not BUSY keeps its status and result alone. -/
theorem settleMul_of_not_busy {e : MulEngine} (h : e.st ≠ .busy) (n : Nat) : settleMul n e = freeMul e.st e.result n :=
  if_neg h
theorem settleDiv_of_not_busy {e : DivEngine} (h : e.st ≠ .busy) (n : Nat) : settleDiv n e = freeDiv e.st e.result n :=
  if_neg h
theorem settleSqrt_of_not_busy {e : SqrtEngine} (h : e.st ≠ .busy) (n : Nat) :
    settleSqrt n e = freeSqrt e.st e.result n := if_neg h

/-! ## Using up the schedule and the counter -/

@[simp] theorem tick_core : s.tick.core = s.core := rfl
@[simp] theorem tick_faults : s.tick.faults = s.faults := rfl
@[simp] theorem tick_host : s.tick.host = s.host := rfl
@[simp] theorem tick_schedule : s.tick.schedule = s.schedule.tail := rfl
@[simp] theorem tick_draws : s.tick.draws = s.draws + 1 := rfl

/-! ## The host's next statement -/

@[simp] theorem nextStmt_core : s.nextStmt.core = s.core := rfl
@[simp] theorem nextStmt_faults : s.nextStmt.faults = s.faults := rfl
@[simp] theorem nextStmt_schedule : s.nextStmt.schedule = s.schedule := rfl
@[simp] theorem nextStmt_draws : s.nextStmt.draws = s.draws := rfl
@[simp] theorem nextStmt_script : s.nextStmt.host.script = s.host.script := rfl
@[simp] theorem nextStmt_index : s.nextStmt.host.index = s.host.index + 1 := rfl
@[simp] theorem nextStmt_vars : s.nextStmt.host.vars = s.host.vars := rfl
@[simp] theorem nextStmt_mayCommand : s.nextStmt.host.mayCommand = s.host.mayCommand := rfl
@[simp] theorem nextStmt_mayRead : s.nextStmt.host.mayRead = s.host.mayRead := rfl

/-! ## Presenting a command, the host's side -/

@[simp] theorem afterPresent_core (i : Instr) : (afterPresent i s).core = s.core := by
  unfold afterPresent; split <;> rfl
@[simp] theorem afterPresent_faults (i : Instr) : (afterPresent i s).faults = s.faults := by
  unfold afterPresent; split <;> rfl
@[simp] theorem afterPresent_schedule (i : Instr) : (afterPresent i s).schedule = s.schedule := by
  unfold afterPresent; split <;> rfl
@[simp] theorem afterPresent_draws (i : Instr) : (afterPresent i s).draws = s.draws := by
  unfold afterPresent; split <;> rfl
@[simp] theorem afterPresent_script (i : Instr) : (afterPresent i s).host.script = s.host.script := by
  unfold afterPresent; split <;> rfl
@[simp] theorem afterPresent_index (i : Instr) : (afterPresent i s).host.index = s.host.index + 1 := by
  unfold afterPresent; split <;> rfl
@[simp] theorem afterPresent_vars (i : Instr) : (afterPresent i s).host.vars = s.host.vars := by
  unfold afterPresent; split <;> rfl

/-! ## Reads and RESET -/

@[simp] theorem readStatus_core (v : Nat) : (readStatus v s).core = s.core := rfl
@[simp] theorem readStatus_faults (v : Nat) : (readStatus v s).faults = s.faults := rfl
@[simp] theorem readStatus_script (v : Nat) : (readStatus v s).host.script = s.host.script := rfl
@[simp] theorem readStatus_index (v : Nat) : (readStatus v s).host.index = s.host.index := rfl
@[simp] theorem readStatus_vars (v : Nat) :
    (readStatus v s).host.vars = setVar v (statusWord s.core).toNat s.host.vars := rfl
@[simp] theorem readStatus_mayCommand (v : Nat) :
    (readStatus v s).host.mayCommand = s.host.mayCommand.setDone (statusWord s.core) := rfl
@[simp] theorem readStatus_mayRead (v : Nat) :
    (readStatus v s).host.mayRead = s.host.mayRead.setDone (statusWord s.core) := rfl

@[simp] theorem assertReset_core : (assertReset s).core = resetCore s.draws := rfl
@[simp] theorem assertReset_faults : (assertReset s).faults = s.faults := rfl
@[simp] theorem assertReset_script : (assertReset s).host.script = s.host.script := rfl
@[simp] theorem assertReset_index : (assertReset s).host.index = s.host.index := rfl
@[simp] theorem assertReset_vars : (assertReset s).host.vars = s.host.vars := rfl

/-! ## One flag per engine -/

@[simp] theorem flags_get_set_same (f : EngineFlags) (e : Engine) (v : Bool) : (f.set e v).get e = v := by
  cases e <;> rfl

theorem flags_get_set_other (f : EngineFlags) {e e' : Engine} (v : Bool) (h : e' ≠ e) :
    (f.set e v).get e' = f.get e' := by
  cases e <;> cases e' <;> first | rfl | exact absurd rfl h

@[simp] theorem flags_get_setDone (f : EngineFlags) (w : StatusWord) (e : Engine) :
    (f.setDone w).get e = (f.get e || showsDone e w) := by
  cases e <;> rfl

end Sys2Proof.Laws
end

