-- ==== Sys2Proof/Laws/Ops.lean ====
section
/-!
SUPPORT. For each shared operation, what it can do: host variables, raising a fault, the readiness check, the status
word as a host reads it, operands, and the four commands.
-/
namespace Sys2Proof.Laws

open Sys2Proof.Machine Sys2Proof.Safety

/-! ## Well-formedness and encoding -/

/-- The fields of `Instr` have the widths of the ports (00_scope.md R11). -/
theorem instr_wellFormed (i : Instr) : i.wellFormed = true := by
  have h (a : Word) : a.toNat ≤ Config.maxOperand := by
    have := a.isLt; simp only [Config.maxOperand, Config.operandWidth]; omega
  cases i <;> simp [Instr.wellFormed, h]

/-! ## Host variables -/

theorem getVar_eraseVar_same (v : Nat) (l : List (Nat × Nat)) : getVar v (eraseVar v l) = none := by
  induction l with
  | nil => rfl
  | cons p l ih => simp only [eraseVar]; split <;> simp_all [getVar]

theorem getVar_eraseVar_other {u v : Nat} (h : u ≠ v) (l : List (Nat × Nat)) :
    getVar u (eraseVar v l) = getVar u l := by
  induction l with
  | nil => rfl
  | cons p l ih =>
    simp only [eraseVar]
    split
    · rename_i hk; simp [getVar, ih, hk, Ne.symm h]
    · simp [getVar, ih]

theorem getVar_insertVar_same (v n : Nat) {l : List (Nat × Nat)} (h : getVar v l = none) :
    getVar v (insertVar v n l) = some n := by
  induction l with
  | nil => simp [insertVar, getVar]
  | cons p l ih =>
    obtain ⟨k, m⟩ := p
    simp only [insertVar]
    have hk : k ≠ v := fun hk => by simp [getVar, hk] at h
    have hl : getVar v l = none := by simpa [getVar, hk] using h
    split <;> simp [getVar, hk, ih hl]

theorem getVar_insertVar_other {u v : Nat} (h : u ≠ v) (n : Nat) (l : List (Nat × Nat)) :
    getVar u (insertVar v n l) = getVar u l := by
  induction l with
  | nil => simp [insertVar, getVar, Ne.symm h]
  | cons p l ih =>
    obtain ⟨k, m⟩ := p
    simp only [insertVar]
    split <;> simp [getVar, ih, Ne.symm h]

/-- A read after a write to the same variable gives the value written. -/
@[simp] theorem getVar_setVar_same (v n : Nat) (l : List (Nat × Nat)) : getVar v (setVar v n l) = some n :=
  getVar_insertVar_same v n (getVar_eraseVar_same v l)

/-- A write leaves every other variable alone. -/
theorem getVar_setVar_other {u v : Nat} (h : u ≠ v) (n : Nat) (l : List (Nat × Nat)) :
    getVar u (setVar v n l) = getVar u l := by
  rw [setVar, getVar_insertVar_other h, getVar_eraseVar_other h]

theorem mem_eraseVar {v : Nat} {l : List (Nat × Nat)} {p : Nat × Nat} (h : p ∈ eraseVar v l) : p ∈ l ∧ p.1 ≠ v := by
  induction l with
  | nil => simp [eraseVar] at h
  | cons q l ih =>
    simp only [eraseVar] at h
    split at h
    · exact ⟨List.mem_cons_of_mem _ (ih h).1, (ih h).2⟩
    · rename_i hk
      rcases List.mem_cons.1 h with rfl | h
      · exact ⟨List.mem_cons_self, hk⟩
      · exact ⟨List.mem_cons_of_mem _ (ih h).1, (ih h).2⟩

/-- Erasing keeps the variables in order. -/
theorem eraseVar_sorted (v : Nat) {l : List (Nat × Nat)} (h : VarsSorted l) : VarsSorted (eraseVar v l) := by
  induction l with
  | nil => exact List.Pairwise.nil
  | cons p l ih =>
    obtain ⟨hp, hl⟩ := List.pairwise_cons.1 h
    simp only [eraseVar]
    split
    · exact ih hl
    · exact List.pairwise_cons.2 ⟨fun q hq => hp q (mem_eraseVar hq).1, ih hl⟩

theorem mem_insertVar {v n : Nat} {l : List (Nat × Nat)} {p : Nat × Nat} (h : p ∈ insertVar v n l) :
    p = (v, n) ∨ p ∈ l := by
  induction l with
  | nil => simpa [insertVar] using h
  | cons q l ih =>
    simp only [insertVar] at h
    split at h
    · simpa using h
    · rcases List.mem_cons.1 h with rfl | h
      · exact .inr List.mem_cons_self
      · exact (ih h).imp_right (List.mem_cons_of_mem _)

theorem insertVar_sorted {v n : Nat} {l : List (Nat × Nat)} (h : VarsSorted l) (hv : ∀ p ∈ l, p.1 ≠ v) :
    VarsSorted (insertVar v n l) := by
  induction l with
  | nil => simp [insertVar, VarsSorted]
  | cons p l ih =>
    obtain ⟨hp, hl⟩ := List.pairwise_cons.1 h
    have hne := hv p List.mem_cons_self
    simp only [insertVar]
    split
    · rename_i hlt
      refine List.pairwise_cons.2 ⟨fun q hq => ?_, h⟩
      rcases List.mem_cons.1 hq with rfl | hq
      · exact hlt
      · exact Nat.lt_trans hlt (hp q hq)
    · rename_i hlt
      refine List.pairwise_cons.2 ⟨fun q hq => ?_, ih hl fun q hq => hv q (List.mem_cons_of_mem _ hq)⟩
      rcases mem_insertVar hq with rfl | hq
      · show p.1 < v
        simp only [Nat.not_lt] at hlt
        omega
      · exact hp q hq

/-- Writing keeps the variables in order. -/
theorem setVar_sorted (v n : Nat) {l : List (Nat × Nat)} (h : VarsSorted l) : VarsSorted (setVar v n l) :=
  insertVar_sorted (eraseVar_sorted v h) fun _ hp => (mem_eraseVar hp).2

/-! ## Unspecified hidden registers (10_state.md R32) -/

/-- Settling an engine changes nothing but what R32 calls unspecified. -/
@[simp] theorem hideMul_settleMul (n : Nat) (e : MulEngine) : hideMul (settleMul n e) = hideMul e := by
  by_cases h : e.st = .busy
  · rw [settleMul_of_busy h]
  · rw [settleMul_of_not_busy h]; simp [hideMul, h, freeMul]

@[simp] theorem hideDiv_settleDiv (n : Nat) (e : DivEngine) : hideDiv (settleDiv n e) = hideDiv e := by
  by_cases h : e.st = .busy
  · rw [settleDiv_of_busy h]
  · rw [settleDiv_of_not_busy h]; simp [hideDiv, h, freeDiv]

@[simp] theorem hideSqrt_settleSqrt (n : Nat) (e : SqrtEngine) : hideSqrt (settleSqrt n e) = hideSqrt e := by
  by_cases h : e.st = .busy
  · rw [settleSqrt_of_busy h]
  · rw [settleSqrt_of_not_busy h]; simp [hideSqrt, h, freeSqrt]

/-- An operation that runs, or has finished, does so whatever the hidden registers hold once it is DONE. -/
theorem mulRuns_settle {x y : Word} {e : MulEngine} (h : MulRuns x y e) (n : Nat) : MulRuns x y (settleMul n e) := by
  rcases h with h | h
  · rw [settleMul_of_busy h.busy]; exact .inl h
  · exact .inr ⟨by simp [h.1], by simpa using h.2⟩

theorem divRuns_settle {x y : Word} {e : DivEngine} (h : DivRuns x y e) (n : Nat) : DivRuns x y (settleDiv n e) := by
  rcases h with h | h
  · rw [settleDiv_of_busy h.busy]; exact .inl h
  · exact .inr ⟨by simp [h.1], h.2.1, by simpa using h.2.2⟩

theorem sqrtRuns_settle {x : Word} {e : SqrtEngine} (h : SqrtRuns x e) (n : Nat) : SqrtRuns x (settleSqrt n e) := by
  rcases h with h | h
  · rw [settleSqrt_of_busy h.busy]; exact .inl h
  · exact .inr ⟨by simp [h.1], by simpa using h.2⟩

/-! ## Raising a fault -/

@[simp] theorem raise_faults (f : FaultEntry) (s : State) : (raise f s).faults = s.faults ++ [f] := rfl
@[simp] theorem raise_host (f : FaultEntry) (s : State) : (raise f s).host = s.host := rfl
@[simp] theorem raise_schedule (f : FaultEntry) (s : State) : (raise f s).schedule = s.schedule := rfl
@[simp] theorem raise_draws (f : FaultEntry) (s : State) : (raise f s).draws = s.draws := rfl
@[simp] theorem raise_mul (f : FaultEntry) (s : State) : (raise f s).core.mul = s.core.mul := by cases f <;> rfl
@[simp] theorem raise_sqrt (f : FaultEntry) (s : State) : (raise f s).core.sqrt = s.core.sqrt := by cases f <;> rfl

/-- Only cause 1 touches DIV (60_exceptions.md R160). -/
theorem raise_div (f : FaultEntry) (s : State) :
    (raise f s).core.div = s.core.div ∨
      ((∃ a, f = .divByZero a) ∧ (raise f s).core.div = freeDiv .fault none s.draws) := by
  cases f <;> simp [raise, recordInHardware]

/-- A fault never clears `CMD_ERR`. -/
theorem raise_cmdErr (f : FaultEntry) (s : State) :
    (raise f s).core.cmdErr = s.core.cmdErr ∨ (raise f s).core.cmdErr = true := by
  cases f <;> simp [raise, recordInHardware]

@[simp] theorem raise_resultNotReady_core (e : Engine) (s : State) : (raise (.resultNotReady e) s).core = s.core := rfl
@[simp] theorem raise_engineNotReady_core (e : Engine) (w : Cmd) (s : State) :
    (raise (.engineNotReady e w) s).core = { s.core with cmdErr := true } := rfl
@[simp] theorem raise_reservedOp_core (w : Cmd) (s : State) :
    (raise (.reservedOp w) s).core = { s.core with cmdErr := true } := rfl

/-! ## The readiness check -/

/-- An engine is ready exactly when it is IDLE or DONE (40_command.md R81). -/
theorem ready_iff (e : Engine) (c : CoreState) : ready e c = true ↔ c.status e = .idle ∨ c.status e = .done := by
  unfold ready; split <;> simp_all

/-- An engine is not ready exactly when it is BUSY or in FAULT (40_command.md R80). -/
theorem not_ready_iff (e : Engine) (c : CoreState) : ready e c = false ↔ c.status e = .busy ∨ c.status e = .fault := by
  unfold ready; split <;> simp_all

theorem ifReady_of_ready {e : Engine} {s : State} (h : ready e s.core = true) (i : Instr) (start : State → State) :
    ifReady e i start s = start s := by simp [ifReady, h]

theorem ifReady_of_not_ready {e : Engine} {s : State} (h : ready e s.core = false) (i : Instr)
    (start : State → State) : ifReady e i start s = raise (.engineNotReady e (encode i)) s := by simp [ifReady, h]

/-! ## The four commands -/

/-- Everything a command can do: it is accepted by MUL, by DIV or by SQRT, or it raises one of causes 1, 2 and 3. -/
theorem exec_cases {i : Instr} {s t : State} (h : exec i s = .next t) :
    (∃ a b, i = .mul a b ∧ ready .mul s.core = true ∧ t = s.setMul (initMul a b)) ∨
    (∃ a b, i = .div a b ∧ ready .div s.core = true ∧ b ≠ 0#16 ∧ t = s.setDiv (initDiv a b)) ∨
    (∃ a b, i = .sqrt a b ∧ ready .sqrt s.core = true ∧ t = s.setSqrt (initSqrt a)) ∨
    (∃ a, i = .div a 0#16 ∧ ready .div s.core = true ∧ t = raise (.divByZero a) s) ∨
    (∃ a b, i = .reserved a b ∧ t = raise (.reservedOp (encode i)) s) ∨
    (∃ e, engineOf i = some e ∧ ready e s.core = false ∧ t = raise (.engineNotReady e (encode i)) s) := by
  cases i with
  | mul a b =>
    cases hr : ready .mul s.core <;> simp only [exec, execMul, ifReady, hr] at h <;> cases h
    · exact .inr <| .inr <| .inr <| .inr <| .inr ⟨.mul, rfl, hr, rfl⟩
    · exact .inl ⟨a, b, rfl, rfl, rfl⟩
  | div a b =>
    cases hr : ready .div s.core <;> simp only [exec, execDiv, ifReady, hr, startDiv] at h
    · cases h; exact .inr <| .inr <| .inr <| .inr <| .inr ⟨.div, rfl, hr, rfl⟩
    · by_cases hb : b = 0#16 <;> simp only [hb, ↓reduceIte] at h <;> cases h
      · exact .inr <| .inr <| .inr <| .inl ⟨a, by rw [hb], rfl, rfl⟩
      · exact .inr <| .inl ⟨a, b, rfl, rfl, hb, rfl⟩
  | sqrt a b =>
    cases hr : ready .sqrt s.core <;> simp only [exec, execSqrt, ifReady, hr] at h <;> cases h
    · exact .inr <| .inr <| .inr <| .inr <| .inr ⟨.sqrt, rfl, hr, rfl⟩
    · exact .inr <| .inr <| .inl ⟨a, b, rfl, rfl, rfl⟩
  | reserved a b =>
    simp only [exec, execReserved] at h; cases h
    exact .inr <| .inr <| .inr <| .inr <| .inl ⟨a, b, rfl, rfl⟩

/-! ## The status word as a host reads it -/

/-- Eight flags packed as `STATUS` packs them, bit 7 first, and read back. -/
theorem packed_bits : ∀ b7 b6 b5 b4 b3 b2 b1 b0 : Bool,
    let w : StatusWord :=
      BitVec.ofBool b7 ++ BitVec.ofBool b6 ++ BitVec.ofBool b5 ++ BitVec.ofBool b4 ++ BitVec.ofBool b3
        ++ BitVec.ofBool b2 ++ BitVec.ofBool b1 ++ BitVec.ofBool b0
    w.getLsbD 1 = b1 ∧ w.getLsbD 3 = b3 ∧ w.getLsbD 4 = b4 ∧ w.getLsbD 6 = b6 := by
  decide

/-- The DONE bit of an engine says that it is DONE (10_state.md R22). -/
@[simp] theorem showsDone_statusWord (e : Engine) (c : CoreState) :
    showsDone e (statusWord c) = decide (c.status e = .done) := by
  cases e
  · exact (packed_bits ..).1
  · exact (packed_bits ..).2.1
  · exact (packed_bits ..).2.2.2

/-- The fault bit that ends a `WAIT` says that DIV is in FAULT (10_state.md R22, 30_encoding.md R67). -/
@[simp] theorem showsFault_statusWord (e : Engine) (c : CoreState) :
    showsFault e (statusWord c) = (decide (e = .div) && decide (c.div.st = .fault)) := by
  cases e
  · rfl
  · exact (packed_bits ..).2.2.1
  · rfl

/-! ## Operands -/

/-- A natural goes on the port exactly when it is at most 65535; otherwise it is refused (00_scope.md R11). -/
theorem toPort_cases (n : Nat) :
    (n ≤ 65535 ∧ toPort n = .next (BitVec.ofNat 16 n)) ∨ (65535 < n ∧ toPort n = .refused (.operandOutOfRange n)) := by
  simp only [toPort, Config.maxOperand, Config.operandWidth]
  by_cases h : n ≤ 65535
  · exact .inl ⟨h, by simp [h]⟩
  · exact .inr ⟨by omega, by simp [h]⟩

/-- Everything an operand can be: a value, an unwritten variable, or a number above 65535. -/
theorem evalOperand_cases (o : Operand) (vars : List (Nat × Nat)) :
    (∃ x, evalOperand o vars = .next x) ∨
    (∃ v, o = .var v ∧ getVar v vars = none ∧ evalOperand o vars = .fault (.unsetVariable v)) ∨
    (∃ n, 65535 < n ∧ evalOperand o vars = .refused (.operandOutOfRange n)) := by
  have lift (n : Nat) : (∃ x, toPort n = .next x) ∨ (∃ m, 65535 < m ∧ toPort n = .refused (.operandOutOfRange m)) := by
    rcases toPort_cases n with ⟨_, h⟩ | ⟨hn, h⟩
    · exact .inl ⟨_, h⟩
    · exact .inr ⟨n, hn, h⟩
  cases o with
  | lit n => exact (lift n).imp_right Or.inr
  | var v =>
    cases hv : getVar v vars with
    | none => exact .inr <| .inl ⟨v, rfl, hv, by simp [evalOperand, hv]⟩
    | some n => simpa [evalOperand, hv] using lift n

/-- A number is a command word or too wide for the port (30_encoding.md R60). -/
theorem decodeWord_cases (w : Nat) :
    (w < 2 ^ 34 ∧ decodeWord w = .ok (decode (BitVec.ofNat 34 w))) ∨
    (2 ^ 34 ≤ w ∧ decodeWord w = .error (.wordTooWide w)) := by
  simp only [decodeWord, Config.commandWidth]
  by_cases h : w < 2 ^ 34
  · exact .inl ⟨h, by simp only [h, ↓reduceIte]⟩
  · exact .inr ⟨by omega, by simp only [h, ↓reduceIte]⟩

/-- A word on the wires is a command. -/
theorem decodeWord_toNat (w : Cmd) : decodeWord w.toNat = .ok (decode w) := by
  rcases decodeWord_cases w.toNat with ⟨_, h⟩ | ⟨hw, _⟩
  · simpa using h
  · have := w.isLt; omega

end Sys2Proof.Laws
end

