-- ==== Sys2Proof/Laws/PerInstr.lean ====
section
/-!
SUPPORT. Statements about every command as syntax, one lemma per constructor.
-/
namespace Sys2Proof.Laws

/-- The word of a command is selected by its row of spec/opcode_table.json (30_encoding.md R69): `w & mask = match`. -/
def TableRow.Statement (i : Instr) : Prop := encode i &&& tableMask = i.tableMatch

/-- Masking a command word leaves `OP` alone. -/
theorem commandWord_masked (op : BitVec 2) (a b : Word) :
    commandWord op a b &&& tableMask = op ++ (0 : BitVec 32) := by
  apply BitVec.eq_of_getLsbD_eq
  intro k hk
  have mask : tableMask = (0b11#2) ++ (0 : BitVec 32) := by decide
  rw [mask]
  simp only [commandWord, BitVec.getLsbD_and, BitVec.getLsbD_append]
  by_cases h1 : k < 32
  · simp [h1]
  · have h2 : ¬k < 16 := by omega
    have h3 : ¬k - 16 < 16 := by omega
    have h4 : k - 16 - 16 = k - 32 := by omega
    have h5 : k = 32 ∨ k = 33 := by omega
    rcases h5 with rfl | rfl <;> simp

theorem TableRow.mul (a b : Word) : TableRow.Statement (.mul a b) :=
  (commandWord_masked 0b00#2 a b).trans (show 0b00#2 ++ (0 : BitVec 32) = 0x000000000#34 by decide)

theorem TableRow.div (a b : Word) : TableRow.Statement (.div a b) :=
  (commandWord_masked 0b01#2 a b).trans (show 0b01#2 ++ (0 : BitVec 32) = 0x100000000#34 by decide)

theorem TableRow.sqrt (a b : Word) : TableRow.Statement (.sqrt a b) :=
  (commandWord_masked 0b10#2 a b).trans (show 0b10#2 ++ (0 : BitVec 32) = 0x200000000#34 by decide)

theorem TableRow.reserved (a b : Word) : TableRow.Statement (.reserved a b) :=
  (commandWord_masked 0b11#2 a b).trans (show 0b11#2 ++ (0 : BitVec 32) = 0x300000000#34 by decide)

end Sys2Proof.Laws
end

