-- ==== Sys2Proof/Laws/Step.lean ====
section
/-!
SUPPORT. What a step can do, said once: the inversion of `nextAgent`, of a host statement and of `step`.
-/
namespace Sys2Proof.Laws

open Sys2Proof.Machine Sys2Proof.Safety

/-- The agent that moves is enabled. -/
theorem nextAgent_enabled {s : State} {a : Agent} (h : nextAgent s = some a) : enabled a s = true :=
  List.find?_some (p := (enabled · s)) h

/-- Every agent is asked. -/
theorem mem_agentsFrom (a b : Agent) : b ∈ agentsFrom a := by
  rcases a with _ | (_ | _ | _) <;> rcases b with _ | (_ | _ | _) <;> simp [agentsFrom]

/-- No agent moves exactly when none is enabled. -/
theorem nextAgent_eq_none {s : State} : nextAgent s = none ↔ ∀ a, enabled a s = false := by
  simp only [nextAgent, List.find?_eq_none, Bool.not_eq_true]
  exact ⟨fun h a => h a (mem_agentsFrom _ a), fun h a _ => h a⟩

/-- The agent asked first moves if it is enabled. -/
theorem nextAgent_eq_asked {s : State} (h : enabled (askedFirst s) s = true) : nextAgent s = some (askedFirst s) := by
  unfold nextAgent
  rcases ha : askedFirst s with _ | (_ | _ | _) <;> rw [ha] at h <;> simp [agentsFrom, h]

/-- An engine that moves is BUSY (40_command.md R83). -/
theorem busy_of_moves {s : State} {e : Engine} (h : nextAgent s = some (.engine e)) : s.core.status e = .busy := by
  simpa [enabled] using nextAgent_enabled h

/-- Everything that presenting an operand pair can do. -/
theorem presentOperands_cases (op : BitVec 2) (a b : Operand) (s : State) :
    (∃ x y, evalOperand a s.host.vars = .next x ∧ evalOperand b s.host.vars = .next y ∧
      presentOperands op a b s = presentInstr (decode (commandWord op x y)) s) ∨
    (∃ v, getVar v s.host.vars = none ∧ presentOperands op a b s = .fault (.unsetVariable v)) ∨
    (∃ n, 65535 < n ∧ presentOperands op a b s = .refused (.operandOutOfRange n)) := by
  rcases evalOperand_cases a s.host.vars with ⟨x, hx⟩ | ⟨v, -, hv, h⟩ | ⟨n, hn, h⟩
  · rcases evalOperand_cases b s.host.vars with ⟨y, hy⟩ | ⟨v, -, hv, h⟩ | ⟨n, hn, h⟩
    · exact .inl ⟨x, y, hx, hy, by simp [presentOperands, hx, hy, andThen, presentWord, decodeWord_toNat]⟩
    · exact .inr <| .inl ⟨v, hv, by simp [presentOperands, hx, h, andThen]⟩
    · exact .inr <| .inr ⟨n, hn, by simp [presentOperands, hx, h, andThen]⟩
  · exact .inr <| .inl ⟨v, hv, by simp [presentOperands, h, andThen]⟩
  · exact .inr <| .inr ⟨n, hn, by simp [presentOperands, h, andThen]⟩

/-- Everything that presenting a word can do. -/
theorem presentWord_cases (w : Nat) (s : State) :
    (w < 2 ^ 34 ∧ decodeWord w = .ok (decode (BitVec.ofNat 34 w)) ∧
      presentWord w s = presentInstr (decode (BitVec.ofNat 34 w)) s) ∨
    (2 ^ 34 ≤ w ∧ presentWord w s = .refused (.wordTooWide w)) := by
  rcases decodeWord_cases w with ⟨hw, h⟩ | ⟨hw, h⟩
  · exact .inl ⟨hw, h, by simp [presentWord, h]⟩
  · exact .inr ⟨hw, by simp [presentWord, h]⟩

/-- A word of an `OP` decodes to a command of that `OP`'s engine. -/
theorem engineOf_decode_commandWord (x y : Word) :
    engineOf (decode (commandWord 0b00#2 x y)) = some .mul ∧
    engineOf (decode (commandWord 0b01#2 x y)) = some .div ∧
    engineOf (decode (commandWord 0b10#2 x y)) = some .sqrt ∧
    engineOf (decode (commandWord 0b11#2 x y)) = none := by
  have h (op : BitVec 2) : opField (commandWord op x y) = op := by
    apply BitVec.eq_of_getLsbD_eq
    intro k hk
    simp only [opField, commandWord, BitVec.getLsbD_extractLsb', BitVec.getLsbD_append]
    have h1 : ¬(32 + k < 16) := by omega
    have h2 : ¬(32 + k - 16 < 16) := by omega
    have h3 : 32 + k - 16 - 16 = k := by omega
    simp [h1, h2, h3, hk]
  simp [decode, h, engineOf]

/-- Everything that running a statement to a next state can do: present a command, read, or assert RESET. -/
theorem runStmt_cases {st : HostStmt} {s t : State} (h : runStmt st s = .next t) :
    (∃ i, commandedEngine st = engineOf i ∧ exec i (afterPresent i s) = .next t) ∨
    (∃ v, st = .rdstat v ∧ t = (readStatus v s).nextStmt) ∨
    (∃ e v, st = .rd e v ∧ t = (readInto e v s).nextStmt) ∨
    (∃ e v, st = .poll e v ∧ t = pollOnce e v s) ∨
    (st = .reset ∧ t = (assertReset s).nextStmt) := by
  have operands {op : BitVec 2} {a b : Operand} (h : presentOperands op a b s = .next t) :
      ∃ x y, presentInstr (decode (commandWord op x y)) s = .next t := by
    rcases presentOperands_cases op a b s with ⟨x, y, -, -, hp⟩ | ⟨v, -, hp⟩ | ⟨n, -, hp⟩
    · exact ⟨x, y, hp ▸ h⟩
    · rw [hp] at h; cases h
    · rw [hp] at h; cases h
  cases st with
  | mul a b =>
    obtain ⟨x, y, hp⟩ := operands h
    exact .inl ⟨_, (engineOf_decode_commandWord x y).1.symm, hp⟩
  | div a b =>
    obtain ⟨x, y, hp⟩ := operands h
    exact .inl ⟨_, (engineOf_decode_commandWord x y).2.1.symm, hp⟩
  | sqrt a =>
    obtain ⟨x, y, hp⟩ := operands h
    exact .inl ⟨_, (engineOf_decode_commandWord x y).2.2.1.symm, hp⟩
  | rsvd a b =>
    obtain ⟨x, y, hp⟩ := operands h
    exact .inl ⟨_, (engineOf_decode_commandWord x y).2.2.2.symm, hp⟩
  | cmd w =>
    simp only [runStmt] at h
    rcases presentWord_cases w s with ⟨-, hd, hp⟩ | ⟨-, hp⟩
    · rw [hp] at h
      exact .inl ⟨_, by simp [commandedEngine, hd, Except.toOption], h⟩
    · rw [hp] at h; cases h
  | rdstat v => simp only [runStmt] at h; cases h; exact .inr <| .inl ⟨v, rfl, rfl⟩
  | rd e v => simp only [runStmt] at h; cases h; exact .inr <| .inr <| .inl ⟨e, v, rfl, rfl⟩
  | poll e v => simp only [runStmt] at h; cases h; exact .inr <| .inr <| .inr <| .inl ⟨e, v, rfl, rfl⟩
  | reset => simp only [runStmt] at h; cases h; exact .inr <| .inr <| .inr <| .inr ⟨rfl, rfl⟩

/-- The step of a host that runs a statement. -/
theorem step_of_hostRuns {st : HostStmt} {s : State} (h : HostRuns st s) : step s = runStmt st s.tick := by
  simp [step, h.1, hostStep, h.2]

/-- Everything a step to a next state can do: nothing, one engine's step, or one host statement. -/
theorem step_cases {s t : State} (h : step s = .next t) :
    (nextAgent s = none ∧ t = s) ∨
    (∃ e, nextAgent s = some (.engine e) ∧ t = engineStep e s.tick) ∨
    (∃ st, HostRuns st s ∧ runStmt st s.tick = .next t) := by
  unfold step at h
  split at h
  · exact .inl ⟨‹_›, by cases h; rfl⟩
  · rename_i ha
    have hc := nextAgent_enabled ha
    simp only [enabled, Option.isSome_iff_exists] at hc
    obtain ⟨st, hst⟩ := hc
    simp only [hostStep, tick_host, hst] at h
    exact .inr <| .inr ⟨st, ⟨ha, hst⟩, h⟩
  · exact .inr <| .inl ⟨_, ‹_›, by cases h; rfl⟩

end Sys2Proof.Laws
end

