-- ==== Sys2Proof/Tests/Slice0.lean ====
section
/-!
SUPPORT. The model's own tests: expected values are the spec's (each comment names the place), and witnesses that the
hypotheses of the statements in Certificates/Slice0/Obligations.lean can be met together.
-/
namespace Sys2Proof.Tests

open Sys2Proof.Machine Sys2Proof.Safety

/-! ## Small states -/

/-- After reset, the host about to run one statement. -/
def hostAt (st : HostStmt) : State :=
  { State.reset with host := { HostSide.reset with script := [st] }, schedule := [.host] }

/-- MUL running `MUL 12, 10` before its fourth step (41_multiply.md R108). -/
def mulMid : MulEngine := { st := .busy, y := 10, sx := 96, acc := 24, i := 3, result := none }

/-- MUL running `MUL 255, 511` before its last step (95_test_vectors.md section 3). -/
def mulLast : MulEngine := { st := .busy, y := 511, sx := 65280, acc := 65025, i := 8, result := none }

/-- MUL after `MUL 12, 10` (41_multiply.md R108). -/
def mulFinished : MulEngine := { st := .done, y := 10, sx := 49152, acc := 120, i := 12, result := some 120 }

/-- DIV running `DIV 30, 4` before its third step (42_divide.md R128). -/
def divDown : DivEngine :=
  { st := .busy, x := 30, y := 4, d := 16, k := 2, q := 0, m := 0, ph := .descend, result := none }

/-- DIV running `DIV 30, 4` before its last step (42_divide.md R128). -/
def divUp : DivEngine :=
  { st := .busy, x := 30, y := 4, d := 8, k := 1, q := 3, m := 24, ph := .ascend, result := none }

/-- DIV after `DIV 30, 4` (42_divide.md R128). -/
def divFinished : DivEngine :=
  { st := .done, x := 30, y := 4, d := 4, k := 0, q := 7, m := 28, ph := .ascend, result := some 7 }

/-- DIV in FAULT. -/
def divFaulted : DivEngine := { CoreState.reset.div with st := .fault }

/-- SQRT running `SQRT 25` before its last step (43_sqrt.md R147). -/
def sqrtLast : SqrtEngine := { st := .busy, x := 25, y := 4, ysq := 16, j := 0, result := none }

/-- SQRT running `SQRT 65535` before its second step (95_test_vectors.md section 6). -/
def sqrtMid : SqrtEngine := { st := .busy, x := 65535, y := 128, ysq := 16384, j := 6, result := none }

/-- SQRT after `SQRT 25` (43_sqrt.md R147). -/
def sqrtFinished : SqrtEngine := { st := .done, x := 25, y := 5, ysq := 25, j := 0, result := some 5 }

/-- What a check says of the state an outcome gives, `false` for a stop. -/
def leads (o : Host.Outcome State Fault Refusal) (check : State → Bool) : Bool :=
  match o with
  | .next t => check t
  | .fault _ | .refused _ => false

/-- What a check says of the reason an outcome is refused for. -/
def refuses (o : Host.Outcome State Fault Refusal) (check : Refusal → Bool) : Bool :=
  match o with
  | .refused r => check r
  | .next _ | .fault _ => false

/-! ## Encoding: words written out bit by bit from 30_encoding.md R60 and R61 -/

/-- `MUL 12, 10` (R68): OP 00, A 000C, B 000A. -/
theorem test_decode_mul : decode (0b00#2 ++ 0b0000000000001100#16 ++ 0b0000000000001010#16) = .mul 12 10 := by decide

/-- `DIV 30, 4` (R68): OP 01, A 001E, B 0004. -/
theorem test_decode_div : decode (0b01#2 ++ 0b0000000000011110#16 ++ 0b0000000000000100#16) = .div 30 4 := by decide

/-- `0x2_0064_ABCD` (95 section 7.1): SQRT 100 whatever `B`. -/
theorem test_decode_sqrt : decode 0x20064ABCD#34 = .sqrt 100 0xABCD := by decide

/-- `0x3_FFFF_FFFF` (95 section 7.1): reserved. -/
theorem test_decode_reserved : decode 0x3FFFFFFFF#34 = .reserved 0xFFFF 0xFFFF := by decide

/-- `MUL 255, 511` is `0x0_00FF_01FF` and `DIV 65535, 32768` is `0x1_FFFF_8000` (95 M21, Q9). -/
theorem test_encode : encode (.mul 255 511) = 0x000FF01FF#34 ∧ encode (.div 65535 32768) = 0x1FFFF8000#34 := by decide

/-- The table's numbering: 34 bits in 5 bytes; a bit above them is no command. -/
theorem test_table_word : decodeTableWord 40 0x200190000 = some (.sqrt 25 0) ∧ decodeTableWord 40 0x400190000 = none := by
  decide

/-- The first step after reset runs the placed word, here `MUL 12, 10`. -/
theorem test_fetch_word :
    leads (step (State.reset.withFetchWord 40 0x0000C000A)) (fun t => t.core.mul = initMul 12 10) = true := by decide

/-! ## Ill-formed host statements are refused (00_scope.md R11) -/

theorem test_wellFormed_first_operand :
    HostStmt.wellFormed (.mul (.lit 65536) (.lit 1)) = false ∧ HostStmt.wellFormed (.div (.lit 65536) (.lit 1)) = false ∧
    HostStmt.wellFormed (.rsvd (.lit 65536) (.lit 1)) = false ∧ HostStmt.wellFormed (.sqrt (.lit 65536)) = false := by
  decide

theorem test_wellFormed_second_operand :
    HostStmt.wellFormed (.mul (.lit 65535) (.lit 65536)) = false ∧
    HostStmt.wellFormed (.div (.lit 65535) (.lit 65536)) = false ∧
    HostStmt.wellFormed (.rsvd (.lit 65535) (.lit 65536)) = false := by decide

theorem test_wellFormed_word :
    HostStmt.wellFormed (.cmd (2 ^ 34)) = false ∧ HostStmt.wellFormed (.cmd (2 ^ 34 - 1)) = true ∧
    scriptWellFormed [.reset, .cmd (2 ^ 34)] = false := by decide

theorem test_step_refuses_operand :
    refuses (step (hostAt (.mul (.lit 65536) (.lit 1)))) (fun r => r = .operandOutOfRange 65536) = true := by decide

/-- `CALL.DIV a, b -> r` expands as 30_encoding.md R67 says. -/
theorem test_expand_call :
    assemble [.callDiv (.lit 100) (.lit 0) 8 9] = [.div (.lit 100) (.lit 0), .poll .div 8, .rd .div 9] := by decide

/-! ## MUL -/

/-- 41_multiply.md R108, step 4: bit 3 of 10 is set, 24 + 96 = 120. -/
theorem test_mul_step : (stepMul mulMid).acc = 120 ∧ (stepMul mulMid).sx = 192 ∧ (stepMul mulMid).i = 4 := by decide

/-- 95 section 3, M21 step 9: the 17th bit is kept. -/
theorem test_mul_completes : (stepMul mulLast).st = .done ∧ (stepMul mulLast).result = some 0x1FD01#17 := by decide

/-- 10_state.md R32: what a completed or faulted engine holds in a hidden register is a free value, whatever the operation
left there. -/
theorem test_hidden_free :
    (engineStep .mul (State.reset.setMul mulLast)).core.mul.acc = Config.freeHidden 17 .mulAcc 0 ∧
    (engineStep .mul (State.reset.setMul mulLast)).core.mul.result = some 0x1FD01#17 ∧
    (raise (.divByZero 5) (State.reset.setDiv divFinished)).core.div.q = Config.freeHidden 16 .divQ 0 :=
  ⟨rfl, rfl, rfl⟩

/-! ## DIV -/

/-- 95 section 5, Q7 step 1: 65535 doubles to 131070, the 17-bit case. -/
theorem test_div_doubles : (stepDiv (initDiv 65535 65535)).d = 131070 ∧ (stepDiv (initDiv 65535 65535)).k = 1 := by
  decide

/-- 42_divide.md R128, step 7: complete with 7. -/
theorem test_div_completes : stepDiv divUp = divFinished := by decide

/-! ## SQRT -/

/-- 95 section 6, S26 step 2: 192 squared is 36864, kept. -/
theorem test_sqrt_step : (stepSqrt sqrtMid).y = 192 ∧ (stepSqrt sqrtMid).ysq = 36864 ∧ (stepSqrt sqrtMid).j = 5 := by
  decide

/-- 43_sqrt.md R147, step 8: complete with 5. -/
theorem test_sqrt_completes : stepSqrt sqrtLast = sqrtFinished := by decide

/-! ## RESERVED and the order of the checks -/

/-- 95 section 7.3, T9: cause 2 with the whole word, engines unchanged. -/
theorem test_reserved :
    leads (exec (.reserved 0x1234 0x5678) (State.reset.setMul mulMid)) (fun t =>
      t.core = { (State.reset.setMul mulMid).core with cmdErr := true } ∧
        t.faults = [.reservedOp 0x312345678#34]) = true := by decide

/-- 95 section 7.3, T5: a division by zero to a BUSY engine raises cause 3, not cause 1. -/
theorem test_check_order :
    leads (exec (.div 9 0) (State.reset.setDiv divDown)) (fun t =>
      t.core.div = divDown ∧ t.core.cmdErr = true ∧ t.faults = [.engineNotReady .div 0x100090000#34]) = true := by decide

/-! ## STATUS and the values -/

/-- 95 section 7.2: all BUSY is 0x25; DONE, FAULT, DONE with CMD_ERR is 0xD2. -/
theorem test_status :
    statusWord { mul := mulMid, div := divDown, sqrt := sqrtMid, cmdErr := false } = 0x25#8 ∧
    statusWord { mul := mulFinished, div := divFaulted, sqrt := sqrtFinished, cmdErr := true } = 0xD2#8 := by decide

/-- 95 M25, Q13, S23; and (511, 255), by hand 511 * 255 = 130305 with `k(511) = 7` (assumption 23). -/
theorem test_values :
    mul16 300 1000 = 69600 ∧ div16 65535 3 = some 21845 ∧ isqrt16 32767 = 181 ∧ mul16 511 255 = 130305 ∧
    div16 5 0 = none := by decide

/-- A result that is not ready leaves no value in the variable (95 section 7.3, T12; assumption 10). -/
theorem test_failed_read :
    leads (runStmt (.rd .mul 3) { hostAt (.rd .mul 3) with host := { HostSide.reset with vars := [(3, 7)] } })
      (fun t => t.host.vars = [] ∧ t.faults = [.resultNotReady .mul]) = true := by decide

/-! ## Witnesses: encoding -/

theorem wit_wellFormed : (Instr.mul 0xFFFF 0xFFFF).wellFormed = true := by decide

theorem wit_op_fields :
    (0x0FFFFFFFF#34).toNat / 2 ^ 32 = 0 ∧ (0x100000000#34).toNat / 2 ^ 32 = 1 ∧ (0x2FFFFFFFF#34).toNat / 2 ^ 32 = 2 ∧
    (0x300000000#34).toNat / 2 ^ 32 = 3 := by decide

theorem wit_wide_word : 2 ^ 34 ≤ 2 ^ 34 ∧ HostRuns (.cmd (2 ^ 34)) (hostAt (.cmd (2 ^ 34))) :=
  ⟨Nat.le_refl _, by decide, by decide⟩

theorem wit_sqrt_words : ready .sqrt State.reset.core = true ∧ 2 * 2 ^ 32 ≤ 3 * 2 ^ 32 - 1 ∧ 3 * 2 ^ 32 - 1 < 3 * 2 ^ 32 := by
  decide

/-! ## Witnesses: acceptance -/

theorem wit_idle :
    State.reset.core.mul.st = .idle ∧ State.reset.core.div.st = .idle ∧ State.reset.core.sqrt.st = .idle ∧
    (1 : Word) ≠ 0#16 := by decide

theorem wit_done :
    (State.reset.setMul mulFinished).core.mul.st = .done ∧ (State.reset.setDiv divFinished).core.div.st = .done ∧
    (State.reset.setSqrt sqrtFinished).core.sqrt.st = .done := by decide

theorem wit_busy :
    (State.reset.setMul mulMid).core.mul.st = .busy ∧ (State.reset.setDiv divDown).core.div.st = .busy ∧
    (State.reset.setSqrt sqrtMid).core.sqrt.st = .busy := by decide

theorem wit_faulted :
    (State.reset.setMul { mulMid with st := .fault }).core.mul.st = .fault ∧
    (State.reset.setDiv divFaulted).core.div.st = .fault ∧
    (State.reset.setSqrt { sqrtMid with st := .fault }).core.sqrt.st = .fault := by decide

/-- A command in each case of the checks: reserved, not ready, divisor zero, accepted. -/
theorem wit_exec_next :
    (∃ t, exec (.reserved 0 0) State.reset = .next t) ∧ (∃ t, exec (.mul 1 2) (State.reset.setMul mulMid) = .next t) ∧
    (∃ t, exec (.div 5 0) State.reset = .next t) ∧ (∃ t, exec (.sqrt 25 0) State.reset = .next t) :=
  ⟨⟨_, rfl⟩, ⟨_, rfl⟩, ⟨_, rfl⟩, ⟨_, rfl⟩⟩

/-- Two states that accept the same command and hold different engines, for each engine. -/
theorem wit_accepted_twice :
    (accepts (.mul 6 5) State.reset.core = true ∧ accepts (.mul 6 5) (State.reset.setMul mulFinished).core = true) ∧
    (accepts (.div 6 5) State.reset.core = true ∧ accepts (.div 6 5) (State.reset.setDiv divFinished).core = true) ∧
    (accepts (.sqrt 6 5) State.reset.core = true ∧ accepts (.sqrt 6 5) (State.reset.setSqrt sqrtFinished).core = true) := by
  decide

/-- The frame's clauses on the engine addressed: a command to each engine, and one to none. -/
theorem wit_engineOf :
    engineOf (.mul 0 0) ≠ some .div ∧ engineOf (.div 0 0) ≠ some .sqrt ∧ engineOf (.sqrt 0 0) ≠ some .mul ∧
    engineOf (.reserved 0 0) = none := by decide

/-! ## Witnesses: the operations -/

theorem wit_ranges :
    2 ^ 1 ≤ 3 ∧ 3 < 2 ^ (1 + 1) ∧ 2 ^ 15 ≤ 65535 ∧ 65535 < 2 ^ (15 + 1) ∧ 65535 * 2 ^ 0 ≤ 65535 ∧ 255 * 257 ≤ 65535 ∧
    2 % 2 ^ (lastScanned 65535 + 1) = 4 % 2 ^ (lastScanned 65535 + 1) := by decide

theorem wit_mulBusy : MulBusy 12 10 mulMid ∧ mulMid.i.toNat < lastScanned (12 : Word).toNat :=
  ⟨⟨rfl, rfl, rfl, by decide, by decide, by decide⟩, by decide⟩

theorem wit_mulBusy_last : MulBusy 255 511 mulLast ∧ mulLast.i.toNat = lastScanned (255 : Word).toNat :=
  ⟨⟨rfl, rfl, rfl, by decide, by decide, by decide⟩, by decide⟩

theorem wit_mulDone : MulDone 12 10 mulFinished := ⟨rfl, by decide⟩

theorem wit_divBusy_descend : DivBusy 30 4 divDown :=
  ⟨rfl, rfl, rfl, rfl, by decide, by decide, by decide, fun _ => by decide, fun h => nomatch h⟩

theorem wit_divBusy_ascend : DivBusy 30 4 divUp ∧ divUp.ph = .ascend ∧ divUp.k = 1#5 :=
  ⟨⟨rfl, rfl, rfl, rfl, by decide, by decide, by decide, fun h => (nomatch h), fun _ => by decide⟩, rfl, rfl⟩

theorem wit_divBusy_at_once : DivBusy 7 8 (initDiv 7 8) ∧ (initDiv 7 8).k = 0#5 ∧ (7 : Word).toNat < (8 : Word).toNat :=
  ⟨⟨rfl, rfl, rfl, rfl, by decide, by decide, by decide, fun _ => by decide, fun h => nomatch h⟩, rfl, by decide⟩

/-- The largest doubling, to 131070, at `x = y = 65535` (42_divide.md R124). -/
theorem wit_divBusy_largest : DivBusy 65535 65535 (initDiv 65535 65535) ∧ (initDiv 65535 65535).ph = .descend ∧
    (initDiv 65535 65535).d.toNat ≤ (initDiv 65535 65535).x.toNat :=
  ⟨⟨rfl, rfl, rfl, rfl, by decide, by decide, by decide, fun _ => by decide, fun h => nomatch h⟩, rfl, by decide⟩

/-- `DIV 65535, 1` before its sixteenth doubling: `DIV.K` becomes 16 (42_divide.md R125). -/
def divDeep : DivEngine :=
  { st := .busy, x := 65535, y := 1, d := 32768, k := 15, q := 0, m := 0, ph := .descend, result := none }

theorem wit_divBusy_deepest : DivBusy 65535 1 divDeep ∧ divDeep.ph = .descend ∧ divDeep.d.toNat ≤ divDeep.x.toNat :=
  ⟨⟨rfl, rfl, rfl, rfl, by decide, by decide, by decide, fun _ => by decide, fun h => nomatch h⟩, rfl, by decide⟩

/-- `DIV 32, 4` before an ASCEND step whose bit is 0: the remainder is 0 and `d'` is 16 (by hand from 42_divide.md
R123). -/
def divZeroBit : DivEngine :=
  { st := .busy, x := 32, y := 4, d := 32, k := 3, q := 1, m := 32, ph := .ascend, result := none }

theorem wit_divBusy_both_bits : DivBusy 32 4 divZeroBit ∧ divZeroBit.quotientBit = false ∧ divUp.quotientBit = true :=
  ⟨⟨rfl, rfl, rfl, rfl, by decide, by decide, by decide, fun h => (nomatch h), fun _ => by decide⟩, by decide, by decide⟩

theorem wit_divDone : DivDone 30 4 divFinished := ⟨rfl, by decide, by decide⟩

/-- A DIV run with all its phases: `K(30, 4) = 3` (42_divide.md R128). -/
theorem wit_div_phases : (4 : Word) ≠ 0#16 ∧ doublings 30 4 = 3 ∧ 3 < 4 ∧ 4 ≤ 2 * 3 := by decide

theorem wit_sqrtBusy : SqrtBusy 65535 sqrtMid ∧ sqrtMid.j ≠ 0#3 :=
  ⟨⟨rfl, rfl, rfl, by decide, by decide⟩, by decide⟩

theorem wit_sqrtBusy_last : SqrtBusy 25 sqrtLast ∧ sqrtLast.j = 0#3 :=
  ⟨⟨rfl, rfl, rfl, by decide, by decide⟩, by decide⟩

theorem wit_sqrtDone : SqrtDone 25 sqrtFinished := ⟨rfl, by decide⟩

/-! ## Witnesses: agents and host statements -/

/-- MUL BUSY and scheduled. -/
def mulScheduled : State := { State.reset.setMul mulMid with schedule := [.engine .mul] }

/-- DIV BUSY and scheduled. -/
def divScheduled : State := { State.reset.setDiv divDown with schedule := [.engine .div] }

/-- SQRT BUSY and scheduled. -/
def sqrtScheduled : State := { State.reset.setSqrt sqrtMid with schedule := [.engine .sqrt] }

theorem wit_engines_move :
    nextAgent mulScheduled = some (.engine .mul) ∧ nextAgent divScheduled = some (.engine .div) ∧
    nextAgent sqrtScheduled = some (.engine .sqrt) := by decide

theorem wit_host_moves : nextAgent (hostAt .reset) = some .host ∧ (hostAt .reset).host.current = some .reset := by decide

theorem wit_nobody_moves :
    State.reset.host.current = none ∧ ∀ e, State.reset.core.status e ≠ .busy :=
  ⟨rfl, fun e => by cases e <;> decide⟩

theorem wit_presents_word :
    HostRuns (.cmd 0x0000C000A) (hostAt (.cmd 0x0000C000A)) ∧ decodeWord 0x0000C000A = .ok (.mul 12 10) ∧
    (Instr.mul 12 10).wellFormed = true :=
  ⟨⟨by decide, by decide⟩, rfl, by decide⟩

theorem wit_command_statements :
    evalOperand (.lit 65535) [] = .next 65535 ∧ evalOperand (.lit 0) [] = .next 0 ∧
    HostRuns (.mul (.lit 65535) (.lit 0)) (hostAt (.mul (.lit 65535) (.lit 0))) ∧
    HostRuns (.div (.lit 65535) (.lit 0)) (hostAt (.div (.lit 65535) (.lit 0))) ∧
    HostRuns (.sqrt (.lit 65535)) (hostAt (.sqrt (.lit 65535))) ∧
    HostRuns (.rsvd (.lit 65535) (.lit 0)) (hostAt (.rsvd (.lit 65535) (.lit 0))) :=
  ⟨rfl, rfl, ⟨by decide, by decide⟩, ⟨by decide, by decide⟩, ⟨by decide, by decide⟩, ⟨by decide, by decide⟩⟩

/-- The host with 65536 in variable 1 and nothing in variable 2. -/
def withVar (st : HostStmt) : State :=
  { hostAt st with host := { HostSide.reset with script := [st], vars := [(1, 65536)] } }

theorem wit_operand_too_large :
    65535 < 65536 ∧ getVar 1 (withVar (.sqrt (.var 1))).host.vars = some 65536 ∧
    HostRuns (.sqrt (.var 1)) (withVar (.sqrt (.var 1))) ∧
    evalOperand (.lit 3) (withVar (.mul (.lit 3) (.lit 65536))).host.vars = .next 3 ∧
    HostRuns (.mul (.lit 3) (.lit 65536)) (withVar (.mul (.lit 3) (.lit 65536))) :=
  ⟨by decide, by decide, ⟨by decide, by decide⟩, rfl, ⟨by decide, by decide⟩⟩

theorem wit_unwritten_variable :
    getVar 2 (withVar (.div (.lit 3) (.var 2))).host.vars = none ∧
    evalOperand (.lit 3) (withVar (.div (.lit 3) (.var 2))).host.vars = .next 3 ∧
    HostRuns (.div (.lit 3) (.var 2)) (withVar (.div (.lit 3) (.var 2))) :=
  ⟨by decide, rfl, by decide, by decide⟩

theorem wit_status_read : HostRuns (.rdstat 0) (hostAt (.rdstat 0)) := ⟨by decide, by decide⟩

theorem wit_result_read_done :
    HostRuns (.rd .mul 0) ((hostAt (.rd .mul 0)).setMul mulFinished) ∧
    ((hostAt (.rd .mul 0)).setMul mulFinished).core.status .mul = .done ∧
    ((hostAt (.rd .mul 0)).setMul mulFinished).core.resultReg .mul = some 120 :=
  ⟨⟨by decide, by decide⟩, by decide, by decide⟩

theorem wit_result_read_not_ready :
    HostRuns (.rd .div 0) (hostAt (.rd .div 0)) ∧ (hostAt (.rd .div 0)).core.status .div ≠ .done ∧
    getVar 0 (hostAt (.rd .div 0)).host.vars = none :=
  ⟨⟨by decide, by decide⟩, by decide, by decide⟩

/-- A wait that ends on DONE, one that ends on DIV_FAULT, and one that goes on. -/
theorem wit_poll :
    (HostRuns (.poll .mul 0) ((hostAt (.poll .mul 0)).setMul mulFinished) ∧ mulFinished.st = .done) ∧
    (HostRuns (.poll .div 0) ((hostAt (.poll .div 0)).setDiv divFaulted) ∧ divFaulted.st = .fault) ∧
    (HostRuns (.poll .sqrt 0) (hostAt (.poll .sqrt 0)) ∧ (hostAt (.poll .sqrt 0)).core.status .sqrt ≠ .done) :=
  ⟨⟨⟨by decide, by decide⟩, rfl⟩, ⟨⟨by decide, by decide⟩, rfl⟩, ⟨by decide, by decide⟩, by decide⟩

theorem wit_resets : Resets (hostAt .reset) := ⟨by decide, by decide⟩

/-! ## Witnesses: whole-machine rules -/

/-- A BUSY MUL engine, the host's permissions as after the command that started it. -/
def running : State :=
  { mulScheduled with host := { HostSide.reset with mayCommand := { mul := false, div := true, sqrt := true } } }

theorem wit_inv : Inv running ∧ ∃ t, step running = .next t :=
  ⟨⟨.inr ⟨12, 10, .inl wit_mulBusy.1⟩, .inl ⟨.inl rfl, rfl⟩, .inl ⟨rfl, rfl⟩,
    fun e => by cases e <;> exact ⟨by decide, by decide⟩, .nil⟩, _, rfl⟩

/-- A host about to command an idle machine: the invariant holds and its duty is kept. -/
theorem wit_duty :
    Inv (hostAt (.cmd 0x100050000)) ∧ HostRuns (.cmd 0x100050000) (hostAt (.cmd 0x100050000)) ∧
    keepsDuty (hostAt (.cmd 0x100050000)).host (.cmd 0x100050000) = true ∧
    ∃ t, step (hostAt (.cmd 0x100050000)) = .next t :=
  ⟨⟨.inl ⟨rfl, rfl⟩, .inl ⟨.inl rfl, rfl⟩, .inl ⟨rfl, rfl⟩, fun e => by cases e <;> exact ⟨by decide, by decide⟩, .nil⟩,
    ⟨by decide, by decide⟩, by decide, _, rfl⟩

/-- No RESET and no command while an engine moves. -/
theorem wit_engine_step_is_no_host_step :
    ¬ Resets mulScheduled ∧ ¬ Commands .mul mulScheduled ∧ ¬ Resets divScheduled ∧ ¬ Commands .div divScheduled ∧
    ¬ Resets sqrtScheduled ∧ ¬ Commands .sqrt sqrtScheduled := by
  refine ⟨fun h => ?_, fun ⟨_, h, _⟩ => ?_, fun h => ?_, fun ⟨_, h, _⟩ => ?_, fun h => ?_, fun ⟨_, h, _⟩ => ?_⟩ <;>
    exact absurd h.1 (by decide)

theorem wit_operations_run :
    (MulRuns 12 10 mulScheduled.core.mul ∧ ∃ t, step mulScheduled = .next t) ∧
    (DivRuns 30 4 divScheduled.core.div ∧ ∃ t, step divScheduled = .next t) ∧
    (SqrtRuns 65535 sqrtScheduled.core.sqrt ∧ ∃ t, step sqrtScheduled = .next t) :=
  ⟨⟨.inl wit_mulBusy.1, _, rfl⟩, ⟨.inl wit_divBusy_descend, _, rfl⟩, ⟨.inl wit_sqrtBusy.1, _, rfl⟩⟩

/-- A command presented to a BUSY engine, for each engine: no RESET, and the operation is under way. -/
theorem wit_commanded_while_busy :
    (MulRuns 12 10 ((hostAt (.cmd 0x000060005)).setMul mulMid).core.mul ∧
      Commands .mul ((hostAt (.cmd 0x000060005)).setMul mulMid) ∧ mulMid.st ≠ .done ∧
      ¬ Resets ((hostAt (.cmd 0x000060005)).setMul mulMid) ∧
      ∃ t, step ((hostAt (.cmd 0x000060005)).setMul mulMid) = .next t) ∧
    (DivRuns 30 4 ((hostAt (.cmd 0x100050000)).setDiv divDown).core.div ∧
      Commands .div ((hostAt (.cmd 0x100050000)).setDiv divDown) ∧ divDown.st ≠ .done ∧
      ¬ Resets ((hostAt (.cmd 0x100050000)).setDiv divDown) ∧
      ∃ t, step ((hostAt (.cmd 0x100050000)).setDiv divDown) = .next t) ∧
    (SqrtRuns 65535 ((hostAt (.cmd 0x200190000)).setSqrt sqrtMid).core.sqrt ∧
      Commands .sqrt ((hostAt (.cmd 0x200190000)).setSqrt sqrtMid) ∧ sqrtMid.st ≠ .done ∧
      ¬ Resets ((hostAt (.cmd 0x200190000)).setSqrt sqrtMid) ∧
      ∃ t, step ((hostAt (.cmd 0x200190000)).setSqrt sqrtMid) = .next t) :=
  ⟨⟨.inl wit_mulBusy.1, ⟨_, ⟨by decide, rfl⟩, rfl⟩, by decide, fun h => absurd h.2 (by decide), _, rfl⟩,
    ⟨.inl wit_divBusy_descend, ⟨_, ⟨by decide, rfl⟩, rfl⟩, by decide, fun h => absurd h.2 (by decide), _, rfl⟩,
    ⟨.inl wit_sqrtBusy.1, ⟨_, ⟨by decide, rfl⟩, rfl⟩, by decide, fun h => absurd h.2 (by decide), _, rfl⟩⟩

/-- An operation of each engine that is DONE, while another engine moves: no RESET, no command. -/
theorem wit_operations_done :
    (MulRuns 12 10 (divScheduled.setMul mulFinished).core.mul ∧ (divScheduled.setMul mulFinished).core.mul.st = .done ∧
      ¬ Commands .mul (divScheduled.setMul mulFinished) ∧ ∃ t, step (divScheduled.setMul mulFinished) = .next t) ∧
    (DivRuns 30 4 (mulScheduled.setDiv divFinished).core.div ∧ (mulScheduled.setDiv divFinished).core.div.st = .done ∧
      ¬ Commands .div (mulScheduled.setDiv divFinished) ∧ ∃ t, step (mulScheduled.setDiv divFinished) = .next t) ∧
    (SqrtRuns 25 (mulScheduled.setSqrt sqrtFinished).core.sqrt ∧
      (mulScheduled.setSqrt sqrtFinished).core.sqrt.st = .done ∧ ¬ Commands .sqrt (mulScheduled.setSqrt sqrtFinished) ∧
      ∃ t, step (mulScheduled.setSqrt sqrtFinished) = .next t) :=
  ⟨⟨.inr wit_mulDone, rfl, fun ⟨_, h, _⟩ => absurd h.1 (by decide), _, rfl⟩,
    ⟨.inr wit_divDone, rfl, fun ⟨_, h, _⟩ => absurd h.1 (by decide), _, rfl⟩,
    ⟨.inr wit_sqrtDone, rfl, fun ⟨_, h, _⟩ => absurd h.1 (by decide), _, rfl⟩⟩

/-- DIV DONE while MUL moves: no RESET, no command to DIV. -/
theorem wit_done_stays :
    (mulScheduled.setDiv divFinished).core.status .div = .done ∧
    (∃ t, step (mulScheduled.setDiv divFinished) = .next t) ∧ ¬ Resets (mulScheduled.setDiv divFinished) ∧
    ¬ Commands .div (mulScheduled.setDiv divFinished) :=
  ⟨rfl, ⟨_, rfl⟩, fun h => absurd h.1 (by decide), fun ⟨_, h, _⟩ => absurd h.1 (by decide)⟩

/-- `CMD_ERR` set, DIV in FAULT and a fault recorded, while MUL moves. -/
def troubled : State :=
  { mulScheduled with
    core := { mulScheduled.core with div := divFaulted, cmdErr := true }
    faults := [.divByZero 5] }

theorem wit_troubled :
    troubled.core.cmdErr = true ∧ troubled.core.div.st = .fault ∧ troubled.faults ≠ [] ∧
    (∃ t, step troubled = .next t) ∧ ¬ Resets troubled :=
  ⟨rfl, rfl, by decide, ⟨_, rfl⟩, fun h => absurd h.1 (by decide)⟩

/-- A read that records cause 4. -/
theorem wit_cause_four :
    ∃ t, step (hostAt (.rd .mul 0)) = .next t ∧ t.faults = (hostAt (.rd .mul 0)).faults ++ [.resultNotReady .mul] :=
  ⟨_, rfl, rfl⟩

/-- Two different states that differ in hidden registers alone. -/
theorem wit_same_but_hidden :
    SameButHidden State.reset (State.reset.setMul { State.reset.core.mul with acc := 5 }) ∧
    State.reset ≠ State.reset.setMul { State.reset.core.mul with acc := 5 } :=
  ⟨rfl, by decide⟩

/-- A step to a state in which nobody can move makes a fair run. -/
theorem fair_of_last_step {s t : State} (first : step s = .next t) (idle : ∀ a, enabled a t = false) :
    IsRun (fun n => if n = 0 then s else t) ∧ WeaklyFair (fun n => if n = 0 then s else t) := by
  have stays : step t = .next t := by
    have nobody : nextAgent t = none := by simp [nextAgent, idle]
    simp [step, nobody]
  refine ⟨fun n => ?_, fun e n h => ?_⟩
  · cases n with
    | zero => exact first
    | succ n => simpa using stays
  · have late := h (n + 1) (Nat.le_succ n)
    have done := idle (.engine e)
    simp_all [enabled]

/-- MUL before its only step, `MUL 32768, 3`. -/
def mulOneStepLeft : State := { mulScheduled with core := { CoreState.reset with mul := initMul 32768 3 }, host := running.host }

/-- DIV before its only step, `DIV 7, 8`. -/
def divOneStepLeft : State :=
  { divScheduled with
    core := { CoreState.reset with div := initDiv 7 8 }
    host := { HostSide.reset with mayCommand := { mul := true, div := false, sqrt := true } } }

/-- SQRT before its last step, `SQRT 25`. -/
def sqrtOneStepLeft : State :=
  { sqrtScheduled with
    core := { CoreState.reset with sqrt := sqrtLast }
    host := { HostSide.reset with mayCommand := { mul := true, div := true, sqrt := false } } }

/-- A fair run from a BUSY engine, for each engine, with the operation that is under way. -/
theorem wit_fair_run :
    (∃ r : Nat → State, IsRun r ∧ Inv (r 0) ∧ WeaklyFair r ∧ (r 0).core.status .mul = .busy ∧
      MulRuns 32768 3 (r 0).core.mul) ∧
    (∃ r : Nat → State, IsRun r ∧ Inv (r 0) ∧ WeaklyFair r ∧ (r 0).core.status .div = .busy ∧
      DivRuns 7 8 (r 0).core.div) ∧
    (∃ r : Nat → State, IsRun r ∧ Inv (r 0) ∧ WeaklyFair r ∧ (r 0).core.status .sqrt = .busy ∧
      SqrtRuns 25 (r 0).core.sqrt) := by
  have mulStarts : MulRuns 32768 3 mulOneStepLeft.core.mul := .inl ⟨rfl, rfl, rfl, by decide, by decide, by decide⟩
  have divStarts : DivRuns 7 8 divOneStepLeft.core.div := .inl wit_divBusy_at_once.1
  have sqrtStarts : SqrtRuns 25 sqrtOneStepLeft.core.sqrt := .inl wit_sqrtBusy_last.1
  have mulRun := fair_of_last_step (s := mulOneStepLeft) rfl fun a => by rcases a with _ | (_ | _ | _) <;> decide
  have divRun := fair_of_last_step (s := divOneStepLeft) rfl fun a => by rcases a with _ | (_ | _ | _) <;> decide
  have sqrtRun := fair_of_last_step (s := sqrtOneStepLeft) rfl fun a => by rcases a with _ | (_ | _ | _) <;> decide
  exact ⟨⟨_, mulRun.1, ⟨.inr ⟨_, _, mulStarts⟩, .inl ⟨.inl rfl, rfl⟩, .inl ⟨rfl, rfl⟩,
      fun e => by cases e <;> exact ⟨by decide, by decide⟩, .nil⟩, mulRun.2, rfl, mulStarts⟩,
    ⟨_, divRun.1, ⟨.inl ⟨rfl, rfl⟩, .inr ⟨_, _, divStarts⟩, .inl ⟨rfl, rfl⟩,
      fun e => by cases e <;> exact ⟨by decide, by decide⟩, .nil⟩, divRun.2, rfl, divStarts⟩,
    ⟨_, sqrtRun.1, ⟨.inl ⟨rfl, rfl⟩, .inl ⟨.inl rfl, rfl⟩, .inr ⟨_, sqrtStarts⟩,
      fun e => by cases e <;> exact ⟨by decide, by decide⟩, .nil⟩, sqrtRun.2, rfl, sqrtStarts⟩⟩

end Sys2Proof.Tests
end

section
/-!
PROOFS. The scope of the model (00_scope.md): an operand above 65535 is refused (R11), and nothing but the host's operands
and words stops a step.
-/
namespace Sys2Proof.Proofs

open Sys2Proof.Machine Sys2Proof.Safety Sys2Proof.Laws

/-! ## An operand that stops a command statement -/

@[simp] theorem andThen_next {α β : Type} (x : α) (f : α → Host.Outcome β Fault Refusal) :
    andThen (.next x) f = f x := rfl
@[simp] theorem andThen_fault {α β : Type} (r : Fault) (f : α → Host.Outcome β Fault Refusal) :
    andThen (.fault r) f = .fault r := rfl
@[simp] theorem andThen_refused {α β : Type} (r : Refusal) (f : α → Host.Outcome β Fault Refusal) :
    andThen (.refused r) f = .refused r := rfl

theorem toPort_of_above {n : Nat} (hn : 65535 < n) : toPort n = .refused (.operandOutOfRange n) := by
  rcases toPort_cases n with ⟨hle, -⟩ | ⟨-, h⟩
  · omega
  · exact h

/-- A number above 65535, or a variable that holds one, has no value on the port (00_scope.md R11). -/
theorem evalOperand_of_above {o : Operand} {vars : List (Nat × Nat)} {n : Nat} (hn : 65535 < n)
    (ho : o = .lit n ∨ ∃ v, o = .var v ∧ getVar v vars = some n) :
    evalOperand o vars = .refused (.operandOutOfRange n) := by
  rcases ho with rfl | ⟨v, rfl, hv⟩
  · exact toPort_of_above hn
  · simp only [evalOperand, hv, toPort_of_above hn]

/-- A command statement stops as its operand `o` stops: whatever is to be done with the value of `o`, the outcome is `r`.
As the second operand, `o` is reached only past a first operand with a value. -/
theorem step_of_operand_stops {s : State} {o a b : Operand} {x : Word} {r : Host.Outcome State Fault Refusal}
    (ho : ∀ f, andThen (evalOperand o s.host.vars) f = r) (ha : evalOperand a s.host.vars = .next x)
    (hruns : HostRuns (.sqrt o) s ∨ HostRuns (.mul o b) s ∨ HostRuns (.div o b) s ∨ HostRuns (.rsvd o b) s ∨
      HostRuns (.mul a o) s ∨ HostRuns (.div a o) s ∨ HostRuns (.rsvd a o) s) :
    step s = r := by
  have first (op : BitVec 2) (b : Operand) : presentOperands op o b s.tick = r := ho _
  have second (op : BitVec 2) : presentOperands op a o s.tick = r := by
    simp only [presentOperands, tick_host, ha, andThen_next, ho]
  rcases hruns with h | h | h | h | h | h | h <;> rw [step_of_hostRuns h]
  · exact first 0b10#2 (.lit 0)
  · exact first 0b00#2 b
  · exact first 0b01#2 b
  · exact first 0b11#2 b
  · exact second 0b00#2
  · exact second 0b01#2
  · exact second 0b11#2

/-- Settles O38: such an operand evaluates to the refusal, at either place of a command statement. -/
theorem operandAbove65535IsRefused : Obligations.OperandAbove65535IsRefused := by
  intro s o a b n x hn ho ha hruns
  exact step_of_operand_stops (fun f => by rw [evalOperand_of_above hn ho, andThen_refused]) ha hruns

/-! ## What can stop a step -/

/-- The outcome is a next state, or a stop for an operand or a word that the host, holding `vars`, cannot present. -/
def NextOrHostStop (vars : List (Nat × Nat)) (r : Host.Outcome State Fault Refusal) : Prop :=
  (∃ t, r = .next t) ∨
  (∃ v, getVar v vars = none ∧ r = .fault (.unsetVariable v)) ∨
  (∃ n, 65535 < n ∧ r = .refused (.operandOutOfRange n)) ∨
  (∃ w, 2 ^ 34 ≤ w ∧ r = .refused (.wordTooWide w))

/-- Every presented command is answered with a next state (40_command.md R80, 60_exceptions.md R163). -/
theorem exec_eq_next (i : Instr) (s : State) : ∃ t, exec i s = .next t := by
  cases i <;> exact ⟨_, rfl⟩

/-- Presenting a pair of operands stops for an operand only. -/
theorem presentOperands_nextOrHostStop (op : BitVec 2) (a b : Operand) (s : State) :
    NextOrHostStop s.host.vars (presentOperands op a b s) := by
  rcases presentOperands_cases op a b s with ⟨x, y, -, -, h⟩ | hunset | habove
  · exact .inl (h ▸ exec_eq_next _ _)
  · exact .inr <| .inl hunset
  · exact .inr <| .inr <| .inl habove

/-- Presenting a word stops for a word that is too wide only. -/
theorem presentWord_nextOrHostStop (w : Nat) (s : State) : NextOrHostStop s.host.vars (presentWord w s) := by
  rcases presentWord_cases w s with ⟨-, -, h⟩ | ⟨hw, h⟩
  · exact .inl (h ▸ exec_eq_next _ _)
  · exact .inr <| .inr <| .inr ⟨w, hw, h⟩

/-- A host statement stops for an operand or a word only: reads, a turn of `WAIT` and RESET always go on. -/
theorem runStmt_nextOrHostStop (st : HostStmt) (s : State) : NextOrHostStop s.host.vars (runStmt st s) := by
  cases st with
  | mul a b => exact presentOperands_nextOrHostStop 0b00#2 a b s
  | div a b => exact presentOperands_nextOrHostStop 0b01#2 a b s
  | sqrt a => exact presentOperands_nextOrHostStop 0b10#2 a (.lit 0) s
  | rsvd a b => exact presentOperands_nextOrHostStop 0b11#2 a b s
  | cmd w => exact presentWord_nextOrHostStop w s
  | rdstat _ | rd _ _ | poll _ _ | reset => exact .inl ⟨_, rfl⟩

/-- A step goes on, or it is the host's and runs a statement. -/
theorem step_eq_next_or_hostRuns (s : State) :
    (∃ t, step s = .next t) ∨ ∃ st, HostRuns st s := by
  cases hagent : nextAgent s with
  | none => exact .inl ⟨s, by simp only [step, hagent]⟩
  | some a =>
    cases a with
    | engine e => exact .inl ⟨engineStep e s.tick, by simp only [step, hagent]⟩
    | host =>
      have henabled := nextAgent_enabled hagent
      obtain ⟨st, hst⟩ := Option.isSome_iff_exists.mp henabled
      exact .inr ⟨st, hagent, hst⟩

/-- Settles O40: a step that does not go on is a host statement's, and a statement stops only for what the host put
into it. -/
theorem onlyHostOperandsStopAStep : Obligations.OnlyHostOperandsStopAStep := by
  intro s
  rcases step_eq_next_or_hostRuns s with hnext | ⟨st, hruns⟩
  · exact .inl hnext
  · rw [step_of_hostRuns hruns]
    exact runStmt_nextOrHostStop st s.tick

end Sys2Proof.Proofs
end

section
/-!
PROOFS. The values of the three operations (41_multiply.md R102, 42_divide.md R121 and R122, 43_sqrt.md R142): what the
loops of Machine/Values.lean compute, said in arithmetic. The engines' step rules are compared with these.
-/
namespace Sys2Proof.Proofs

open Sys2Proof.Machine

/-! ## MUL: the last scanned position and the value -/

theorem scanDown_le (x n : Nat) : scanDown x n ≤ n := by
  induction n with
  | zero => exact Nat.le_refl 0
  | succ n ih => simp only [scanDown]; split <;> omega

theorem scanDown_fits {x : Nat} (hx : x ≤ 65535) (n : Nat) : x * 2 ^ scanDown x n ≤ 65535 := by
  induction n with
  | zero => simpa [scanDown] using hx
  | succ n ih => simp only [scanDown]; split <;> assumption

theorem le_scanDown {x n i : Nat} (hi : i ≤ n) (hfits : x * 2 ^ i ≤ 65535) : i ≤ scanDown x n := by
  induction n with
  | zero => omega
  | succ n ih =>
    simp only [scanDown]
    split
    · exact hi
    · rename_i hn
      have hne : i ≠ n + 1 := fun h => hn (h ▸ hfits)
      exact ih (by omega)

/-- `k(x)` is the last of the positions 0..15 at which `x`, shifted there, still fits 16 bits (41_multiply.md R102). -/
theorem le_lastScanned_iff {x : Nat} (hx : x ≤ 65535) (i : Nat) :
    i ≤ lastScanned x ↔ i ≤ 15 ∧ x * 2 ^ i ≤ 65535 := by
  refine ⟨fun h => ⟨h.trans (scanDown_le x 15), ?_⟩, fun h => le_scanDown h.1 h.2⟩
  calc x * 2 ^ i ≤ x * 2 ^ lastScanned x := Nat.mul_le_mul_left x (Nat.pow_le_pow_right (by decide) h)
    _ ≤ 65535 := scanDown_fits hx 15

/-- One position of shift-and-add: what the bits of `y` below `i` contribute, and then the bit at `i`. -/
theorem mul_mod_two_pow_succ (x y i : Nat) :
    x * (y % 2 ^ (i + 1)) = x * (y % 2 ^ i) + if y.testBit i then x * 2 ^ i else 0 := by
  rw [Nat.mod_pow_succ, Nat.testBit_eq_decide_div_mod_eq, Nat.mul_add]
  rcases Nat.mod_two_eq_zero_or_one (y / 2 ^ i) with hbit | hbit <;> simp [hbit]

/-- The loop of `mul16`, entered at a position that is scanned, ends with the bits of `y` up to `k(x)` counted. -/
theorem mulLoop_eq {x : Nat} (hx : x ≤ 65535) (y : Nat) {n i : Nat} (hi : i ≤ lastScanned x) (hn : n + i = 16) :
    mulLoop y n i (x * (y % 2 ^ i)) (x * 2 ^ i) = x * (y % 2 ^ (lastScanned x + 1)) := by
  induction n generalizing i with
  | zero => have := (le_lastScanned_iff hx i).1 hi; omega
  | succ n ih =>
    have hacc : (if y.testBit i then x * (y % 2 ^ i) + x * 2 ^ i else x * (y % 2 ^ i)) = x * (y % 2 ^ (i + 1)) := by
      rw [mul_mod_two_pow_succ]; split <;> rfl
    have hsx : x * 2 ^ i * 2 = x * 2 ^ (i + 1) := by rw [Nat.pow_succ, Nat.mul_assoc]
    simp only [mulLoop, hacc, hsx]
    have hnext := le_lastScanned_iff hx (i + 1)
    by_cases hlast : i = lastScanned x
    · by_cases hfits : x * 2 ^ (i + 1) ≤ 65535
      · have : n = 0 := by omega
        subst this
        rw [← hlast, if_neg (by omega), mulLoop]
      · rw [← hlast, if_pos (by omega)]
    · have hi' : i + 1 ≤ lastScanned x := by omega
      rw [if_neg (by omega), ih hi' (by omega)]

/-- The closed form of `mul16` (41_multiply.md R102). -/
theorem mul16_eq {x : Nat} (hx : x ≤ 65535) (y : Nat) : mul16 x y = x * (y % 2 ^ (lastScanned x + 1)) := by
  have h := mulLoop_eq hx y (Nat.zero_le (lastScanned x)) (n := 16) rfl
  simpa [mul16, Nat.mod_one] using h

/-! ## DIV: the quotient, and the count of doublings -/

/-- One level of recursive doubling: the quotient by `d` from the quotient by `2 * d` (42_divide.md R121). -/
theorem div_eq_two_mul_add (x : Nat) {d : Nat} (hd : 0 < d) :
    x / d = 2 * (x / (2 * d)) + if d ≤ x - x / (2 * d) * (2 * d) then 1 else 0 := by
  have hsplit := Nat.div_add_mod x (2 * d)
  have hrem := Nat.mod_lt x (show 0 < 2 * d by omega)
  have hmul : x / (2 * d) * (2 * d) = 2 * (x / (2 * d)) * d := by ring
  rw [Nat.mul_comm, hmul] at hsplit
  rw [hmul]
  split
  · refine Nat.div_eq_of_lt_le ?_ ?_ <;> simp only [Nat.add_mul] <;> omega
  · refine Nat.div_eq_of_lt_le ?_ ?_ <;> simp only [Nat.add_mul] <;> omega

theorem divRec_eq {n x y : Nat} (hy : 0 < y) (hdeep : x < y * 2 ^ n) : divRec n x y = x / y := by
  induction n generalizing y with
  | zero => rw [divRec, Nat.div_eq_of_lt (by simpa using hdeep)]
  | succ n ih =>
    have hq : divRec n x (2 * y) = x / (2 * y) := ih (by omega) (by rw [Nat.pow_succ] at hdeep; linarith)
    have hm : 2 * (x / (2 * y)) * y = x / (2 * y) * (2 * y) := by ring
    simp only [divRec, hq, hm]
    split
    · exact (Nat.div_eq_of_lt ‹_›).symm
    · rw [div_eq_two_mul_add x hy]
      split <;> split <;> omega

/-- `div16` is the floor quotient (42_divide.md R122). -/
theorem div16_eq {x y : Nat} (hx : x ≤ 65535) (hy : 0 < y) : div16 x y = some (x / y) := by
  rw [div16, if_neg (by omega), divRec_eq hy (by omega)]

theorem doubleUp_le (x n d : Nat) : doubleUp x n d ≤ n := by
  induction n generalizing d with
  | zero => exact Nat.le_refl 0
  | succ n ih => have := ih (2 * d); simp only [doubleUp]; split <;> omega

theorem lt_mul_two_pow_doubleUp {x n d : Nat} (hdeep : x < d * 2 ^ n) : x < d * 2 ^ doubleUp x n d := by
  induction n generalizing d with
  | zero => exact hdeep
  | succ n ih =>
    simp only [doubleUp]
    split
    · simpa using ‹_›
    · have := ih (d := 2 * d) (by rw [Nat.pow_succ] at hdeep; linarith)
      rw [Nat.pow_succ]; linarith

/-- Doubling `K(x, y)` times takes the divisor above `x` (42_divide.md R121). -/
theorem lt_mul_two_pow_doublings {x y : Nat} (hx : x ≤ 65535) (hy : 0 < y) : x < y * 2 ^ doublings x y :=
  lt_mul_two_pow_doubleUp (by omega)

/-- A divisor that is not yet above `x` has been doubled fewer than `K(x, y)` times. -/
theorem lt_doublings {x y k : Nat} (hx : x ≤ 65535) (hy : 0 < y) (hk : y * 2 ^ k ≤ x) : k < doublings x y := by
  have hlt : y * 2 ^ k < y * 2 ^ doublings x y := hk.trans_lt (lt_mul_two_pow_doublings hx hy)
  exact (Nat.pow_lt_pow_iff_right (by decide)).1 (Nat.lt_of_mul_lt_mul_left hlt)

/-! ## SQRT: the root -/

/-- One position of the search: `s` with the bits below `n` cleared, from `s` with the bits below `n + 1` cleared. -/
theorem div_mul_two_pow_eq (s n : Nat) :
    s / 2 ^ n * 2 ^ n =
      if s / 2 ^ (n + 1) * 2 ^ (n + 1) + 2 ^ n ≤ s then s / 2 ^ (n + 1) * 2 ^ (n + 1) + 2 ^ n
      else s / 2 ^ (n + 1) * 2 ^ (n + 1) := by
  have hle := Nat.div_mul_le_self s (2 ^ (n + 1))
  have hhigh : 2 * (s / 2 ^ (n + 1)) * 2 ^ n = s / 2 ^ (n + 1) * 2 ^ (n + 1) := by ring
  rw [div_eq_two_mul_add s (Nat.two_pow_pos n), ← pow_succ', Nat.add_mul, hhigh]
  split <;> split <;> omega

/-- The search of `isqrt16`, entered with the root's bits from `n` up, ends with the root. -/
theorem sqrtLoop_eq (x n : Nat) : sqrtLoop x n (Nat.sqrt x / 2 ^ n * 2 ^ n) = Nat.sqrt x := by
  induction n with
  | zero => simp [sqrtLoop]
  | succ n ih =>
    simp only [sqrtLoop, ← Nat.le_sqrt']
    rw [div_mul_two_pow_eq] at ih
    split <;> simp_all

theorem sqrt_le_255 {x : Nat} (hx : x ≤ 65535) : Nat.sqrt x ≤ 255 := by
  have : Nat.sqrt x < 256 := Nat.sqrt_lt'.2 (by omega)
  omega

/-- `isqrt16` is the floor root (43_sqrt.md R142). -/
theorem isqrt16_eq {x : Nat} (hx : x ≤ 65535) : isqrt16 x = Nat.sqrt x := by
  have h := sqrtLoop_eq x 8
  rwa [Nat.div_eq_of_lt (by have := sqrt_le_255 hx; omega), Nat.zero_mul] at h

end Sys2Proof.Proofs
end

section
/-!
PROOFS. Every step of a BUSY engine keeps its registers those of its operation (41_multiply.md R104, 42_divide.md R124,
43_sqrt.md R144), or completes with the operation's value.
-/
namespace Sys2Proof.Proofs

open Sys2Proof.Machine Sys2Proof.Safety

/-- An operand is at most 65535 (00_scope.md R11). -/
theorem word_le (x : Word) : x.toNat ≤ 65535 := by have := x.isLt; omega

theorem word_pos {y : Word} (hy : y ≠ 0#16) : 0 < y.toNat :=
  Nat.pos_of_ne_zero fun h => hy (BitVec.eq_of_toNat_eq h)

/-! ## MUL -/

theorem mulBusy_initMul (x y : Word) : MulBusy x y (initMul x y) :=
  ⟨rfl, rfl, rfl, (Nat.mul_one _).symm, Nat.zero_le _, by simp [initMul, Nat.mod_one]⟩

section
variable {x y : Word} {e : MulEngine} (h : MulBusy x y e)
include h

/-- The accumulator has counted one more bit of `y`, and the 17-bit add has not wrapped. -/
theorem accNext_toNat : e.accNext.toNat = x.toNat * (y.toNat % 2 ^ (e.i.toNat + 1)) := by
  have hfits := ((le_lastScanned_iff (word_le x) _).1 h.iBound).2
  have hbit : (if y.getLsbD e.i.toNat then e.sx.setWidth 17 else 0).toNat =
      if y.toNat.testBit e.i.toNat then x.toNat * 2 ^ e.i.toNat else 0 := by
    rw [BitVec.getLsbD]
    split
    · rw [BitVec.toNat_setWidth, h.sxShifted, Nat.mod_eq_of_lt (by omega)]
    · rfl
  have hbound : x.toNat * (y.toNat % 2 ^ (e.i.toNat + 1)) ≤ x.toNat * (2 ^ e.i.toNat * 2) :=
    Nat.mul_le_mul_left _ (Nat.pow_succ 2 _ ▸ (Nat.mod_lt _ (Nat.two_pow_pos _)).le)
  rw [MulEngine.accNext, BitVec.toNat_add, h.yLatched, hbit, h.accPartial, ← mul_mod_two_pow_succ,
    Nat.mod_eq_of_lt (by rw [← Nat.mul_assoc] at hbound; omega)]

/-- The engine's own test for the last position finds `k(x)` (41_multiply.md R102). -/
theorem lastPosition_iff : e.lastPosition = true ↔ e.i.toNat = lastScanned x.toNat := by
  have hhere := (le_lastScanned_iff (word_le x) _).1 h.iBound
  have hnext := le_lastScanned_iff (word_le x) (e.i.toNat + 1)
  have htop : e.sx.getLsbD 15 = decide (32768 ≤ x.toNat * 2 ^ e.i.toNat) := by
    rw [← h.sxShifted]; exact BitVec.msb_eq_decide e.sx
  have hi : e.i = 15#4 ↔ e.i.toNat = 15 := BitVec.toNat_eq
  have hle := h.iBound
  rw [Nat.pow_succ, ← Nat.mul_assoc] at hnext
  simp only [MulEngine.lastPosition, htop, hi, Bool.or_eq_true, decide_eq_true_eq]
  omega

/-- Before the last position a step goes on to the next one. -/
theorem mulBusy_stepMul (hi : e.i.toNat < lastScanned x.toNat) : MulBusy x y (stepMul e) := by
  have hlast : ¬ e.lastPosition = true := fun hl => hi.ne ((lastPosition_iff h).1 hl)
  obtain ⟨hle, hfits⟩ := (le_lastScanned_iff (word_le x) (e.i.toNat + 1)).1 hi
  have hnext : (e.i + 1).toNat = e.i.toNat + 1 := Nat.mod_eq_of_lt (show e.i.toNat + 1 < 2 ^ 4 by omega)
  have hshift : (e.sx <<< 1).toNat = x.toNat * 2 ^ (e.i.toNat + 1) := by
    rw [BitVec.toNat_shiftLeft, Nat.shiftLeft_eq, h.sxShifted, Nat.mul_assoc, ← Nat.pow_add]
    exact Nat.mod_eq_of_lt (by omega)
  rw [stepMul, if_neg hlast]
  exact ⟨h.busy, h.noResult, h.yLatched, hnext ▸ hshift, hnext ▸ hi, hnext ▸ accNext_toNat h⟩

/-- At the last position a step completes with the value. -/
theorem mulDone_stepMul (hi : e.i.toNat = lastScanned x.toNat) : MulDone x y (stepMul e) := by
  rw [stepMul, if_pos ((lastPosition_iff h).2 hi)]
  refine ⟨rfl, congrArg some ?_⟩
  rw [accNext_toNat h, hi, mul16_eq (word_le x)]

theorem mulRuns_stepMul : MulRuns x y (stepMul e) :=
  h.iBound.lt_or_eq.imp (mulBusy_stepMul h) (mulDone_stepMul h)

end

/-! ## DIV -/

theorem divBusy_initDiv (x : Word) {y : Word} (hy : y ≠ 0#16) : DivBusy x y (initDiv x y) where
  busy := rfl
  noResult := rfl
  xLatched := rfl
  yLatched := rfl
  yNonzero := hy
  dDoubled := (BitVec.toNat_setWidth_of_le (by decide)).trans (Nat.mul_one _).symm
  kBound := Nat.zero_le _
  descending _ := ⟨rfl, rfl, fun hk => absurd hk (Nat.not_succ_le_zero 0)⟩
  ascending hph := nomatch hph

section
variable {x y : Word} {e : DivEngine} (h : DivBusy x y e)
include h

theorem k_toNat_le : e.k.toNat ≤ 17 := h.kBound.trans (doubleUp_le _ _ _)

/-! ### DESCEND -/

/-- The registers after a doubling. -/
theorem divBusy_doubled (hph : e.ph = .descend) (hd : e.d.toNat ≤ e.x.toNat) :
    DivBusy x y { e with d := e.d <<< 1, k := e.k + 1 } := by
  have hk17 := k_toNat_le h
  have hx := word_le x
  rw [h.xLatched] at hd
  obtain ⟨hq, hm, -⟩ := h.descending hph
  have hk : (e.k + 1).toNat = e.k.toNat + 1 := Nat.mod_eq_of_lt (show e.k.toNat + 1 < 2 ^ 5 by omega)
  have hdbl : (e.d <<< 1).toNat = y.toNat * 2 ^ (e.k.toNat + 1) := by
    rw [BitVec.toNat_shiftLeft, Nat.shiftLeft_eq, Nat.mod_eq_of_lt (by omega), h.dDoubled, Nat.mul_assoc,
      ← Nat.pow_add]
  have hfits : y.toNat * 2 ^ e.k.toNat ≤ x.toNat := h.dDoubled ▸ hd
  exact
    { busy := h.busy
      noResult := h.noResult
      xLatched := h.xLatched
      yLatched := h.yLatched
      yNonzero := h.yNonzero
      dDoubled := hk ▸ hdbl
      kBound := hk ▸ lt_doublings hx (word_pos h.yNonzero) hfits
      descending := fun _ => ⟨hq, hm, fun _ => hk ▸ hfits⟩
      ascending := fun hasc => absurd (hph.symm.trans hasc) (by decide) }

/-- The registers after the step that finds `DIV.d > DIV.x`: the quotient by `DIV.d` is 0. -/
theorem divBusy_turned (hph : e.ph = .descend) (hd : e.x.toNat < e.d.toNat) (hk : e.k ≠ 0#5) :
    DivBusy x y { e with ph := .ascend } := by
  obtain ⟨hq, hm, -⟩ := h.descending hph
  rw [h.xLatched] at hd
  have hkpos : 1 ≤ e.k.toNat := Nat.pos_of_ne_zero fun h0 => hk (BitVec.eq_of_toNat_eq h0)
  exact
    { busy := h.busy
      noResult := h.noResult
      xLatched := h.xLatched
      yLatched := h.yLatched
      yNonzero := h.yNonzero
      dDoubled := h.dDoubled
      kBound := h.kBound
      descending := fun hdesc => nomatch hdesc
      ascending := fun _ => by simp [hq, hm, hkpos, Nat.div_eq_of_lt hd] }

/-- A divisor above `x` from the start: the quotient is 0. -/
theorem divDone_at_once (hd : e.x.toNat < e.d.toNat) (hk : e.k = 0#5) :
    DivDone x y { e with result := some 0, st := .done } := by
  have hxy : x.toNat < y.toNat := by rw [h.xLatched, h.dDoubled, hk] at hd; simpa using hd
  refine ⟨rfl, h.yNonzero, ?_⟩
  rw [div16_eq (word_le x) (word_pos h.yNonzero), Nat.div_eq_of_lt hxy]
  rfl

theorem divRuns_stepDivDescend (hph : e.ph = .descend) : DivRuns x y (stepDivDescend e) := by
  rw [stepDivDescend]
  split
  · exact .inl (divBusy_doubled h hph ‹_›)
  · split
    · exact .inr (divDone_at_once h (by omega) ‹_›)
    · exact .inl (divBusy_turned h hph (by omega) ‹_›)

/-! ### ASCEND -/

section
variable (hph : e.ph = .ascend)
include hph

theorem pred_k_toNat : (e.k - 1).toNat = e.k.toNat - 1 := by
  obtain ⟨hk, -⟩ := h.ascending hph
  exact BitVec.toNat_sub_of_le hk

/-- `d'` is the divisor one doubling lower. -/
theorem dNext_toNat : e.dNext.toNat = y.toNat * 2 ^ (e.k.toNat - 1) := by
  obtain ⟨hk, -⟩ := h.ascending hph
  rw [DivEngine.dNext, BitVec.toNat_ushiftRight, h.dDoubled, Nat.shiftRight_eq_div_pow,
    ← pow_sub_one_mul (Nat.pos_iff_ne_zero.1 hk), ← Nat.mul_assoc]
  exact Nat.mul_div_cancel _ (by decide)

theorem d_toNat_eq : e.d.toNat = 2 * e.dNext.toNat := by
  obtain ⟨hk, -⟩ := h.ascending hph
  rw [dNext_toNat h hph, h.dDoubled, Nat.mul_left_comm, mul_pow_sub_one (Nat.pos_iff_ne_zero.1 hk)]

theorem dNext_pos : 0 < e.dNext.toNat := by
  rw [dNext_toNat h hph]; exact Nat.mul_pos (word_pos h.yNonzero) (Nat.two_pow_pos _)

/-- The bit is taken on the remainder `DIV.x - DIV.M`, which is not negative. -/
theorem quotientBit_toNat : e.quotientBit.toNat = if e.dNext.toNat ≤ x.toNat - e.m.toNat then 1 else 0 := by
  obtain ⟨-, -, -, hle⟩ := h.ascending hph
  rw [DivEngine.quotientBit, h.xLatched, BitVec.toNat_sub_of_le hle]
  split <;> simp [*]

/-- The new quotient is that by `d'`. -/
theorem div_dNext : x.toNat / e.dNext.toNat = 2 * e.q.toNat + e.quotientBit.toNat := by
  obtain ⟨-, hq, hm, -⟩ := h.ascending hph
  rw [div_eq_two_mul_add x.toNat (dNext_pos h hph), ← d_toNat_eq h hph, ← hq, ← hm, quotientBit_toNat h hph]

/-- `2 * DIV.q + b` does not wrap. -/
theorem qNext_toNat : e.qNext.toNat = x.toNat / e.dNext.toNat := by
  have hle := (Nat.div_le_self x.toNat e.dNext.toNat).trans (word_le x)
  have hdiv := div_dNext h hph
  rw [DivEngine.qNext, BitVec.toNat_add, BitVec.toNat_shiftLeft, Nat.shiftLeft_eq]
  cases hb : e.quotientBit <;> simp [hb] at hdiv ⊢ <;> omega

/-- `DIV.M + b * d'` does not wrap and is not above `x`; it is still the quotient times the divisor. -/
theorem mNext_toNat : e.mNext.toNat = e.qNext.toNat * e.dNext.toNat ∧ e.mNext.toNat ≤ x.toNat := by
  obtain ⟨-, -, hm, hle⟩ := h.ascending hph
  have hx := word_le x
  have hbit := quotientBit_toNat h hph
  have hmd : e.m.toNat = 2 * e.q.toNat * e.dNext.toNat := by rw [hm, d_toNat_eq h hph]; ring
  rw [qNext_toNat h hph, div_dNext h hph, Nat.add_mul, ← hmd, DivEngine.mNext, BitVec.toNat_add]
  cases hb : e.quotientBit <;> simp [hb] at hbit ⊢ <;> omega

/-- The registers after a level that is not the last. -/
theorem divBusy_ascended (hk : e.k - 1 ≠ 0#5) : DivBusy x y e.ascended where
  busy := h.busy
  noResult := h.noResult
  xLatched := h.xLatched
  yLatched := h.yLatched
  yNonzero := h.yNonzero
  dDoubled := (dNext_toNat h hph).trans (by rw [← pred_k_toNat h hph]; rfl)
  kBound := by
    have hle : (e.k - 1).toNat ≤ e.k.toNat := pred_k_toNat h hph ▸ Nat.sub_le _ _
    exact hle.trans h.kBound
  descending hdesc := absurd (hph.symm.trans hdesc) (by decide)
  ascending _ :=
    ⟨Nat.pos_of_ne_zero fun h0 => hk (BitVec.eq_of_toNat_eq h0), qNext_toNat h hph, mNext_toNat h hph⟩

/-- After the last level the divisor is `y` itself. -/
theorem divDone_ascended (hk : e.k - 1 = 0#5) :
    DivDone x y { e.ascended with result := some e.qNext, st := .done } := by
  have hd : e.dNext.toNat = y.toNat := by
    rw [dNext_toNat h hph, ← pred_k_toNat h hph, hk]; exact Nat.mul_one _
  refine ⟨rfl, h.yNonzero, ?_⟩
  rw [div16_eq (word_le x) (word_pos h.yNonzero), ← hd, ← qNext_toNat h hph]
  rfl

theorem divRuns_stepDivAscend : DivRuns x y (stepDivAscend e) := by
  rw [stepDivAscend]
  split
  · exact .inr (divDone_ascended h hph ‹_›)
  · exact .inl (divBusy_ascended h hph ‹_›)

end

theorem divRuns_stepDiv : DivRuns x y (stepDiv e) := by
  unfold stepDiv
  split
  · exact divRuns_stepDivDescend h ‹_›
  · exact divRuns_stepDivAscend h ‹_›

end

/-! ## SQRT -/

theorem isqrt16_le_255 (x : Word) : isqrt16 x.toNat ≤ 255 :=
  isqrt16_eq (word_le x) ▸ sqrt_le_255 (word_le x)

theorem sqrtBusy_initSqrt (x : Word) : SqrtBusy x (initSqrt x) := by
  refine ⟨rfl, rfl, rfl, ?_, rfl⟩
  have := isqrt16_le_255 x
  show 0 = isqrt16 x.toNat / 2 ^ 8 * 2 ^ 8
  omega

section
variable {x : Word} {e : SqrtEngine} (h : SqrtBusy x e)
include h

/-- The bit of the candidate is clear in `SQRT.y`, so the `or` is a sum (43_sqrt.md R143). -/
theorem candidate_toNat : e.candidate.toNat = e.y.toNat + 2 ^ e.j.toNat := by
  have hj := e.j.isLt
  have hbit : (1#8 <<< e.j.toNat).toNat = 2 ^ e.j.toNat := by
    have hlt : 2 ^ e.j.toNat < 2 ^ 8 := Nat.pow_lt_pow_right (by decide) hj
    rw [BitVec.toNat_shiftLeft, Nat.shiftLeft_eq]
    simpa using Nat.mod_eq_of_lt hlt
  have hlow : 2 ^ e.j.toNat < 2 ^ (e.j.toNat + 1) := Nat.pow_lt_pow_right (by decide) (Nat.lt_succ_self _)
  rw [SqrtEngine.candidate, BitVec.toNat_or, hbit, h.yPrefix, Nat.mul_comm]
  exact (Nat.two_pow_add_eq_or_of_lt hlow _).symm

/-- The shifts and adds square the candidate, and do not wrap. -/
theorem candidateSq_toNat : e.candidateSq.toNat = e.candidate.toNat ^ 2 := by
  have hc := e.candidate.isLt
  have hsq : e.candidate.toNat ^ 2 = e.y.toNat ^ 2 + e.y.toNat * 2 ^ (e.j.toNat + 1) + 2 ^ (2 * e.j.toNat) := by
    rw [candidate_toNat h]; ring
  have hlt : e.candidate.toNat ^ 2 < 2 ^ 16 := by nlinarith
  have hy : e.y.toNat % 2 ^ 16 = e.y.toNat := Nat.mod_eq_of_lt (e.y.isLt.trans (by decide))
  simp only [SqrtEngine.candidateSq, BitVec.toNat_add, BitVec.toNat_shiftLeft, BitVec.toNat_setWidth, h.ysqSquare, hy,
    Nat.shiftLeft_eq, BitVec.toNat_ofNat]
  omega

/-- The bit is kept exactly when the candidate is not above the root. -/
theorem keeps_iff : e.keeps = true ↔ e.y.toNat + 2 ^ e.j.toNat ≤ isqrt16 x.toNat := by
  rw [SqrtEngine.keeps, decide_eq_true_eq, candidateSq_toNat h, h.xLatched, candidate_toNat h, isqrt16_eq (word_le x),
    Nat.le_sqrt']

/-- The new `SQRT.y` is the root with the bits below position `j` cleared. -/
theorem yNext_toNat : e.yNext.toNat = isqrt16 x.toNat / 2 ^ e.j.toNat * 2 ^ e.j.toNat := by
  rw [div_mul_two_pow_eq, ← h.yPrefix, SqrtEngine.yNext]
  simp only [keeps_iff h]
  split
  · exact candidate_toNat h
  · rfl

theorem ysqNext_toNat : e.ysqNext.toNat = e.yNext.toNat ^ 2 := by
  unfold SqrtEngine.ysqNext SqrtEngine.yNext
  split
  · exact candidateSq_toNat h
  · exact h.ysqSquare

/-- Before position 0 a step goes on to the next position. -/
theorem sqrtBusy_stepSqrt (hj : e.j ≠ 0#3) : SqrtBusy x (stepSqrt e) := by
  have hpos : 1 ≤ e.j.toNat := Nat.pos_of_ne_zero fun h0 => hj (BitVec.eq_of_toNat_eq h0)
  have hpred : (e.j - 1).toNat + 1 = e.j.toNat := by
    rw [BitVec.toNat_sub_of_le hpos]; exact Nat.sub_add_cancel hpos
  rw [stepSqrt, if_neg hj]
  exact ⟨h.busy, h.noResult, h.xLatched, hpred ▸ yNext_toNat h, ysqNext_toNat h⟩

/-- At position 0 a step completes with the root. -/
theorem sqrtDone_stepSqrt (hj : e.j = 0#3) : SqrtDone x (stepSqrt e) := by
  have hroot := yNext_toNat h
  rw [hj] at hroot
  rw [stepSqrt, if_pos hj]
  exact ⟨rfl, congrArg some (by simpa using hroot)⟩

theorem sqrtRuns_stepSqrt : SqrtRuns x (stepSqrt e) := by
  by_cases hj : e.j = 0#3
  · exact .inr (sqrtDone_stepSqrt h hj)
  · exact .inl (sqrtBusy_stepSqrt h hj)

end

end Sys2Proof.Proofs
end

section
/-!
PROOFS. The invariant of the machine (10_state.md R21 and R24 to R27, 70_reset_and_hazards.md R183 and R184): it holds
after reset, and every operation a step is made of keeps it.
-/
namespace Sys2Proof.Proofs

open Sys2Proof.Machine Sys2Proof.Safety Sys2Proof.Laws

/-- The invariant's part about the block. -/
def EnginesOk (c : CoreState) : Prop := MulOk c.mul ∧ DivOk c.div ∧ SqrtOk c.sqrt

theorem inv_iff (s : State) : Inv s ↔ EnginesOk s.core ∧ PermissionsOk s ∧ VarsSorted s.host.vars :=
  ⟨fun h => ⟨⟨h.mul, h.div, h.sqrt⟩, h.permissions, h.vars⟩,
    fun ⟨⟨hmul, hdiv, hsqrt⟩, hperm, hvars⟩ => ⟨hmul, hdiv, hsqrt, hperm, hvars⟩⟩

/-! ## RESET -/

/-- An IDLE engine without a result is as it should be, whatever its hidden registers hold. -/
theorem enginesOk_of_idle {c : CoreState} (h : ∀ e, c.status e = .idle ∧ c.resultReg e = none) : EnginesOk c := by
  have hmul := h .mul
  have hdiv := h .div
  have hsqrt := h .sqrt
  simp only [status_mul, resultReg_mul, status_div, resultReg_div, status_sqrt, resultReg_sqrt,
    Option.map_eq_none_iff] at hmul hdiv hsqrt
  exact ⟨.inl hmul, .inl ⟨.inl hdiv.1, hdiv.2⟩, .inl hsqrt⟩

/-- No permission to command a BUSY engine, and none to read, is right where every engine is IDLE. -/
theorem permissionsOk_of_idle {s : State} (hidle : ∀ e, s.core.status e = .idle)
    (hread : ∀ e, s.host.mayRead.get e = false) : PermissionsOk s := by
  intro e
  simp [hidle e, hread e]

theorem reset_engines_idle (e : Engine) :
    State.reset.core.status e = .idle ∧ State.reset.core.resultReg e = none := by
  cases e <;> exact ⟨rfl, rfl⟩

theorem resetCore_engines_idle (n : Nat) (e : Engine) :
    (resetCore n).status e = .idle ∧ (resetCore n).resultReg e = none := by
  cases e <;> exact ⟨rfl, rfl⟩

/-- Settles O46: the engines' states and results by `reset_engines_idle`, the rest by evaluation. -/
theorem resetStateIsAsSpecified : Obligations.ResetStateIsAsSpecified :=
  ⟨reset_engines_idle, rfl, by decide, rfl⟩

/-- Settles O48: every engine is IDLE without a result, so nothing may be read and everything may be commanded. -/
theorem resetMeetsTheInvariant : Obligations.ResetMeetsTheInvariant :=
  (inv_iff _).2
    ⟨enginesOk_of_idle reset_engines_idle,
      permissionsOk_of_idle (fun e => (reset_engines_idle e).1) (fun e => by cases e <;> rfl), .nil⟩

theorem inv_assertReset {s : State} (h : Inv s) : Inv (assertReset s) := by
  refine (inv_iff _).2 ⟨enginesOk_of_idle (resetCore_engines_idle s.draws), ?_, h.vars⟩
  exact permissionsOk_of_idle (fun e => (resetCore_engines_idle s.draws e).1) (fun e => by cases e <;> rfl)

/-! ## The host's side of a step -/

theorem inv_tick {s : State} (h : Inv s) : Inv s.tick := ⟨h.mul, h.div, h.sqrt, h.permissions, h.vars⟩

theorem inv_nextStmt {s : State} (h : Inv s) : Inv s.nextStmt := ⟨h.mul, h.div, h.sqrt, h.permissions, h.vars⟩

/-- A `STATUS` read permits what its DONE bits show, and a DONE engine is not BUSY. -/
theorem inv_readStatus {s : State} (h : Inv s) (v : Nat) : Inv (readStatus v s) := by
  refine ⟨h.mul, h.div, h.sqrt, fun e => ?_, setVar_sorted v _ h.vars⟩
  obtain ⟨hcommand, hread⟩ := h.permissions e
  simp only [readStatus_mayCommand, readStatus_mayRead, readStatus_core, flags_get_setDone, showsDone_statusWord,
    Bool.or_eq_true, decide_eq_true_eq]
  refine ⟨?_, ?_⟩
  · rintro (hmay | hdone)
    · exact hcommand hmay
    · simp [hdone]
  · rintro (hmay | hdone)
    · exact hread hmay
    · exact hdone

theorem inv_readInto {s : State} (h : Inv s) (e : Engine) (v : Nat) : Inv (readInto e v s) := by
  unfold readInto
  split
  · exact ⟨h.mul, h.div, h.sqrt, h.permissions, setVar_sorted v _ h.vars⟩
  · exact ⟨h.mul, h.div, h.sqrt, h.permissions, eraseVar_sorted v h.vars⟩

theorem inv_pollOnce {s : State} (h : Inv s) (e : Engine) (v : Nat) : Inv (pollOnce e v s) := by
  unfold pollOnce
  split
  · exact inv_nextStmt (inv_readStatus h v)
  · exact inv_readStatus h v

/-! ## An engine's step -/

/-- A BUSY engine that is as it should be runs an operation. -/
theorem mulBusy_of_mulOk {e : MulEngine} (h : MulOk e) (hbusy : e.st = .busy) : ∃ x y, MulBusy x y e := by
  rcases h with ⟨hidle, -⟩ | ⟨x, y, hrun | ⟨hdone, -⟩⟩
  · simp [hbusy] at hidle
  · exact ⟨x, y, hrun⟩
  · simp [hbusy] at hdone

theorem divBusy_of_divOk {e : DivEngine} (h : DivOk e) (hbusy : e.st = .busy) : ∃ x y, DivBusy x y e := by
  rcases h with ⟨hrest, -⟩ | ⟨x, y, hrun | ⟨hdone, -⟩⟩
  · simp [hbusy] at hrest
  · exact ⟨x, y, hrun⟩
  · simp [hbusy] at hdone

theorem sqrtBusy_of_sqrtOk {e : SqrtEngine} (h : SqrtOk e) (hbusy : e.st = .busy) : ∃ x, SqrtBusy x e := by
  rcases h with ⟨hidle, -⟩ | ⟨x, hrun | ⟨hdone, -⟩⟩
  · simp [hbusy] at hidle
  · exact ⟨x, hrun⟩
  · simp [hbusy] at hdone

/-- The step of a BUSY engine keeps the engines as they should be. -/
theorem enginesOk_engineStep {s : State} (h : EnginesOk s.core) {e : Engine} (hbusy : s.core.status e = .busy) :
    EnginesOk (engineStep e s).core := by
  obtain ⟨hmul, hdiv, hsqrt⟩ := h
  cases e with
  | mul =>
    obtain ⟨x, y, hrun⟩ := mulBusy_of_mulOk hmul hbusy
    exact ⟨.inr ⟨x, y, mulRuns_settle (mulRuns_stepMul hrun) _⟩, hdiv, hsqrt⟩
  | div =>
    obtain ⟨x, y, hrun⟩ := divBusy_of_divOk hdiv hbusy
    exact ⟨hmul, .inr ⟨x, y, divRuns_settle (divRuns_stepDiv hrun) _⟩, hsqrt⟩
  | sqrt =>
    obtain ⟨x, hrun⟩ := sqrtBusy_of_sqrtOk hsqrt hbusy
    exact ⟨hmul, hdiv, .inr ⟨x, sqrtRuns_settle (sqrtRuns_stepSqrt hrun) _⟩⟩

@[simp] theorem engineStep_host (e : Engine) (s : State) : (engineStep e s).host = s.host := by cases e <;> rfl

/-- An engine's step leaves the status of the others alone. -/
theorem engineStep_status_other {e e' : Engine} (hne : e' ≠ e) (s : State) :
    (engineStep e s).core.status e' = s.core.status e' := by
  cases e <;> cases e' <;> simp [engineStep] at hne ⊢

/-- The host may neither command nor read a BUSY engine, so the engine's step makes no permission wrong. -/
theorem inv_engineStep {s : State} (h : Inv s) {e : Engine} (hbusy : s.core.status e = .busy) :
    Inv (engineStep e s) := by
  obtain ⟨hengines, hperm, hvars⟩ := (inv_iff s).1 h
  refine (inv_iff _).2 ⟨enginesOk_engineStep hengines hbusy, fun e' => ?_, by rwa [engineStep_host]⟩
  obtain ⟨hcommand, hread⟩ := hperm e'
  rw [engineStep_host]
  by_cases he : e' = e
  · subst he
    exact ⟨fun hmay => absurd hbusy (hcommand hmay), fun hmay => by simp [hread hmay] at hbusy⟩
  · rw [engineStep_status_other he]
    exact ⟨hcommand, hread⟩

/-! ## A presented command -/

/-- A presented command takes the permission to read its engine's result (70_reset_and_hazards.md R184). -/
theorem mayRead_of_afterPresent {i : Instr} {s : State} {e : Engine}
    (h : (afterPresent i s).host.mayRead.get e = true) : engineOf i ≠ some e ∧ s.host.mayRead.get e = true := by
  unfold afterPresent at h
  split at h
  · exact ⟨by simp [*], h⟩
  · rename_i e' hi
    by_cases he : e = e'
    · subst he; simp at h
    · simp only [flags_get_set_other _ _ he] at h
      exact ⟨by simpa [hi] using Ne.symm he, h⟩

/-- An accepted command takes the permission to command its engine (70_reset_and_hazards.md R183). -/
theorem mayCommand_of_afterPresent {i : Instr} {s : State} {e : Engine}
    (h : (afterPresent i s).host.mayCommand.get e = true) :
    ¬ (engineOf i = some e ∧ accepts i s.core = true) ∧ s.host.mayCommand.get e = true := by
  unfold afterPresent at h
  split at h
  · exact ⟨by simp [*], h⟩
  · rename_i e' hi
    by_cases hacc : accepts i s.core = true
    · by_cases he : e = e'
      · subst he; simp [hacc] at h
      · simp only [hacc, if_true, flags_get_set_other _ _ he] at h
        exact ⟨by simp [hi, Ne.symm he], h⟩
    · simp only [if_neg hacc] at h
      exact ⟨fun hboth => hacc hboth.2, h⟩

theorem exec_host {i : Instr} {s t : State} (h : exec i s = .next t) : t.host = s.host := by
  rcases exec_cases h with ⟨_, _, -, -, rfl⟩ | ⟨_, _, -, -, -, rfl⟩ | ⟨_, _, -, -, rfl⟩ | ⟨_, -, -, rfl⟩ |
    ⟨_, _, -, rfl⟩ | ⟨_, -, -, rfl⟩ <;> rfl

/-- A command changes the status of its own engine alone, by being accepted or, DIV by zero, by a fault. -/
theorem exec_status {i : Instr} {s t : State} (h : exec i s = .next t) (e : Engine) :
    t.core.status e = s.core.status e ∨
      (engineOf i = some e ∧ (accepts i s.core = true ∨ t.core.status e = .fault)) := by
  rcases exec_cases h with ⟨a, b, rfl, hr, rfl⟩ | ⟨a, b, rfl, hr, hb, rfl⟩ | ⟨a, b, rfl, hr, rfl⟩ |
    ⟨a, rfl, -, rfl⟩ | ⟨_, _, -, rfl⟩ | ⟨_, -, -, rfl⟩
  · cases e
    case mul => exact .inr ⟨rfl, .inl hr⟩
    all_goals exact .inl rfl
  · cases e
    case div => exact .inr ⟨rfl, .inl (by simp [accepts, hr, hb])⟩
    all_goals exact .inl rfl
  · cases e
    case sqrt => exact .inr ⟨rfl, .inl hr⟩
    all_goals exact .inl rfl
  · cases e
    case div => exact .inr ⟨rfl, .inr rfl⟩
    all_goals exact .inl rfl
  · exact .inl (by cases e <;> rfl)
  · exact .inl (by cases e <;> rfl)

/-- A fault leaves the engines as they should be: DIV in FAULT has no result. -/
theorem enginesOk_raise {s : State} (h : EnginesOk s.core) (f : FaultEntry) : EnginesOk (raise f s).core := by
  obtain ⟨hmul, hdiv, hsqrt⟩ := h
  refine ⟨by rwa [raise_mul], ?_, by rwa [raise_sqrt]⟩
  rcases raise_div f s with hsame | ⟨-, hfault⟩
  · rwa [hsame]
  · exact hfault ▸ .inl ⟨.inr rfl, rfl⟩

/-- An accepted command starts its operation, and any other only raises a fault. -/
theorem enginesOk_exec {i : Instr} {s t : State} (h : EnginesOk s.core) (hexec : exec i s = .next t) :
    EnginesOk t.core := by
  have hraise := enginesOk_raise h
  obtain ⟨hmul, hdiv, hsqrt⟩ := h
  rcases exec_cases hexec with ⟨a, b, -, -, rfl⟩ | ⟨a, b, -, -, hb, rfl⟩ | ⟨a, _, -, -, rfl⟩ | ⟨_, -, -, rfl⟩ |
    ⟨_, _, -, rfl⟩ | ⟨_, -, -, rfl⟩
  · exact ⟨.inr ⟨a, b, .inl (mulBusy_initMul a b)⟩, hdiv, hsqrt⟩
  · exact ⟨hmul, .inr ⟨a, b, .inl (divBusy_initDiv a hb)⟩, hsqrt⟩
  · exact ⟨hmul, hdiv, .inr ⟨a, .inl (sqrtBusy_initSqrt a)⟩⟩
  · exact hraise _
  · exact hraise _
  · exact hraise _

/-- Presenting a command: a permission that is left is one the host had, to an engine that the command did not start. -/
theorem inv_present {i : Instr} {s t : State} (h : Inv s) (hexec : exec i (afterPresent i s) = .next t) : Inv t := by
  obtain ⟨hengines, hperm, hvars⟩ := (inv_iff s).1 h
  refine (inv_iff t).2 ⟨enginesOk_exec (by rwa [afterPresent_core]) hexec, fun e => ?_, ?_⟩
  · have hstatus := exec_status hexec e
    rw [afterPresent_core] at hstatus
    rw [exec_host hexec]
    refine ⟨fun hmay => ?_, fun hmay => ?_⟩
    · obtain ⟨hnot, hmay⟩ := mayCommand_of_afterPresent hmay
      rcases hstatus with hsame | ⟨hi, hacc | hfault⟩
      · exact hsame ▸ (hperm e).1 hmay
      · exact absurd ⟨hi, hacc⟩ hnot
      · simp [hfault]
    · obtain ⟨hnot, hmay⟩ := mayRead_of_afterPresent hmay
      rcases hstatus with hsame | ⟨hi, -⟩
      · exact hsame ▸ (hperm e).2 hmay
      · exact absurd hi hnot
  · rwa [exec_host hexec, afterPresent_vars]

/-! ## One step -/

theorem inv_runStmt {st : HostStmt} {s t : State} (h : Inv s) (hrun : runStmt st s = .next t) : Inv t := by
  rcases runStmt_cases hrun with ⟨i, -, hexec⟩ | ⟨v, -, rfl⟩ | ⟨e, v, -, rfl⟩ | ⟨e, v, -, rfl⟩ | ⟨-, rfl⟩
  · exact inv_present h hexec
  · exact inv_nextStmt (inv_readStatus h v)
  · exact inv_nextStmt (inv_readInto h e v)
  · exact inv_pollOnce h e v
  · exact inv_nextStmt (inv_assertReset h)

/-- Settles O49, by the three things a step can do: nothing, the step of a BUSY engine, or one host statement. -/
theorem stepKeepsTheInvariant : Obligations.StepKeepsTheInvariant := by
  intro s t h hstep
  rcases step_cases hstep with ⟨-, rfl⟩ | ⟨e, hmoves, rfl⟩ | ⟨st, -, hrun⟩
  · exact h
  · exact inv_engineStep (inv_tick h) (busy_of_moves (s := s) hmoves)
  · exact inv_runStmt (inv_tick h) hrun

end Sys2Proof.Proofs
end

section
/-!
PROOFS. `STATUS` bit by bit (10_state.md R22), and hidden registers of an engine that is not BUSY (R32, R34): every
operation a step is made of does the same after `hide`, up to `hide`.
-/
namespace Sys2Proof.Proofs

open Sys2Proof.Machine Sys2Proof.Safety Sys2Proof.Laws

/-! ## STATUS -/

/-- The bits that `packed_bits` leaves out. -/
theorem packed_bits_rest : ∀ b7 b6 b5 b4 b3 b2 b1 b0 : Bool,
    let w : StatusWord :=
      BitVec.ofBool b7 ++ BitVec.ofBool b6 ++ BitVec.ofBool b5 ++ BitVec.ofBool b4 ++ BitVec.ofBool b3
        ++ BitVec.ofBool b2 ++ BitVec.ofBool b1 ++ BitVec.ofBool b0
    w.getLsbD 0 = b0 ∧ w.getLsbD 2 = b2 ∧ w.getLsbD 5 = b5 ∧ w.getLsbD 7 = b7 := by
  decide

/-- Each bit of `STATUS` as the flag it is computed from (10_state.md R22). -/
theorem statusWord_getLsbD (c : CoreState) :
    (statusWord c).getLsbD 0 = decide (c.mul.st = .busy) ∧
    (statusWord c).getLsbD 1 = decide (c.mul.st = .done) ∧
    (statusWord c).getLsbD 2 = decide (c.div.st = .busy) ∧
    (statusWord c).getLsbD 3 = decide (c.div.st = .done) ∧
    (statusWord c).getLsbD 4 = decide (c.div.st = .fault) ∧
    (statusWord c).getLsbD 5 = decide (c.sqrt.st = .busy) ∧
    (statusWord c).getLsbD 6 = decide (c.sqrt.st = .done) ∧
    (statusWord c).getLsbD 7 = c.cmdErr := by
  obtain ⟨h1, h3, h4, h6⟩ := packed_bits c.cmdErr (c.sqrt.st = .done) (c.sqrt.st = .busy) (c.div.st = .fault)
    (c.div.st = .done) (c.div.st = .busy) (c.mul.st = .done) (c.mul.st = .busy)
  obtain ⟨h0, h2, h5, h7⟩ := packed_bits_rest c.cmdErr (c.sqrt.st = .done) (c.sqrt.st = .busy) (c.div.st = .fault)
    (c.div.st = .done) (c.div.st = .busy) (c.mul.st = .done) (c.mul.st = .busy)
  exact ⟨h0, h1, h2, h3, h4, h5, h6, h7⟩

/-- Settles O41: an engine is in one state at a time, so no two of its bits are set. -/
theorem statusBitsAreTheEngineStates : Obligations.StatusBitsAreTheEngineStates := by
  intro c
  obtain ⟨h0, h1, h2, h3, h4, h5, h6, h7⟩ := statusWord_getLsbD c
  have hone {st a b : EngineStatus} (hne : a ≠ b) : ¬(st = a ∧ st = b) := fun ⟨ha, hb⟩ => hne (ha.symm.trans hb)
  simp only [h0, h1, h2, h3, h4, h5, h6, h7, decide_eq_true_eq, true_and]
  exact ⟨hone (by decide), hone (by decide), hone (by decide), hone (by decide), hone (by decide)⟩

/-! ## What `hide` forgets and keeps -/

@[simp] theorem hideMul_st (e : MulEngine) : (hideMul e).st = e.st := by unfold hideMul; split <;> rfl
@[simp] theorem hideMul_result (e : MulEngine) : (hideMul e).result = e.result := by unfold hideMul; split <;> rfl
@[simp] theorem hideDiv_st (e : DivEngine) : (hideDiv e).st = e.st := by unfold hideDiv; split <;> rfl
@[simp] theorem hideDiv_result (e : DivEngine) : (hideDiv e).result = e.result := by unfold hideDiv; split <;> rfl
@[simp] theorem hideSqrt_st (e : SqrtEngine) : (hideSqrt e).st = e.st := by unfold hideSqrt; split <;> rfl
@[simp] theorem hideSqrt_result (e : SqrtEngine) : (hideSqrt e).result = e.result := by unfold hideSqrt; split <;> rfl

/-- A BUSY engine hides nothing. -/
theorem hideMul_of_busy {e : MulEngine} (h : e.st = .busy) : hideMul e = e := if_pos h
theorem hideDiv_of_busy {e : DivEngine} (h : e.st = .busy) : hideDiv e = e := if_pos h
theorem hideSqrt_of_busy {e : SqrtEngine} (h : e.st = .busy) : hideSqrt e = e := if_pos h

@[simp] theorem hideMul_hideMul (e : MulEngine) : hideMul (hideMul e) = hideMul e := by
  by_cases h : e.st = .busy
  · rw [hideMul_of_busy h, hideMul_of_busy h]
  · simp [hideMul, h]

@[simp] theorem hideDiv_hideDiv (e : DivEngine) : hideDiv (hideDiv e) = hideDiv e := by
  by_cases h : e.st = .busy
  · rw [hideDiv_of_busy h, hideDiv_of_busy h]
  · simp [hideDiv, h]

@[simp] theorem hideSqrt_hideSqrt (e : SqrtEngine) : hideSqrt (hideSqrt e) = hideSqrt e := by
  by_cases h : e.st = .busy
  · rw [hideSqrt_of_busy h, hideSqrt_of_busy h]
  · simp [hideSqrt, h]

section
variable (s : State)

@[simp] theorem hide_mul : (hide s).core.mul = hideMul s.core.mul := rfl
@[simp] theorem hide_div : (hide s).core.div = hideDiv s.core.div := rfl
@[simp] theorem hide_sqrt : (hide s).core.sqrt = hideSqrt s.core.sqrt := rfl
@[simp] theorem hide_cmdErr : (hide s).core.cmdErr = s.core.cmdErr := rfl
@[simp] theorem hide_faults : (hide s).faults = s.faults := rfl
@[simp] theorem hide_host : (hide s).host = s.host := rfl
@[simp] theorem hide_schedule : (hide s).schedule = s.schedule := rfl
@[simp] theorem hide_draws : (hide s).draws = s.draws := rfl

@[simp] theorem hide_hide : hide (hide s) = hide s := by simp [hide]

@[simp] theorem hide_status (e : Engine) : (hide s).core.status e = s.core.status e := by cases e <;> simp

@[simp] theorem hide_resultReg (e : Engine) : (hide s).core.resultReg e = s.core.resultReg e := by cases e <;> simp

/-! ## What a host or a command can see -/

@[simp] theorem readResult_hide (e : Engine) : readResult e (hide s).core = readResult e s.core := by simp [readResult]

@[simp] theorem statusWord_hide : statusWord (hide s).core = statusWord s.core := by simp [statusWord]

@[simp] theorem ready_hide (e : Engine) : ready e (hide s).core = ready e s.core := by simp [ready]

@[simp] theorem accepts_hide (i : Instr) : accepts i (hide s).core = accepts i s.core := by cases i <;> simp [accepts]

@[simp] theorem nextAgent_hide : nextAgent (hide s) = nextAgent s := by
  have hasked : askedFirst (hide s) = askedFirst s := rfl
  have henabled (a : Agent) : enabled a (hide s) = enabled a s := by cases a <;> simp [enabled]
  simp [nextAgent, hasked, henabled]

/-! ## The host's operations: they do the same, hidden registers or not -/

@[simp] theorem tick_hide : (hide s).tick = hide s.tick := rfl

@[simp] theorem nextStmt_hide : (hide s).nextStmt = hide s.nextStmt := rfl

@[simp] theorem afterPresent_hide (i : Instr) : afterPresent i (hide s) = hide (afterPresent i s) := by
  simp only [afterPresent, accepts_hide]
  split <;> rfl

@[simp] theorem readStatus_hide (v : Nat) : readStatus v (hide s) = hide (readStatus v s) := by
  simp only [readStatus, statusWord_hide]
  rfl

@[simp] theorem readInto_hide (e : Engine) (v : Nat) : readInto e v (hide s) = hide (readInto e v s) := by
  simp only [readInto, readResult_hide]
  split <;> rfl

@[simp] theorem pollOnce_hide (e : Engine) (v : Nat) : pollOnce e v (hide s) = hide (pollOnce e v s) := by
  simp only [pollOnce, statusWord_hide, readStatus_hide, nextStmt_hide]
  split <;> rfl

/-- RESET overwrites every register it could have looked at. -/
@[simp] theorem assertReset_hide : assertReset (hide s) = assertReset s := rfl

/-! ## Writing an engine and raising a fault: the same up to `hide` -/

@[simp] theorem hide_setMul_hide (e : MulEngine) : hide ((hide s).setMul e) = hide (s.setMul e) := by
  simp [hide, State.setMul]

@[simp] theorem hide_setDiv_hide (e : DivEngine) : hide ((hide s).setDiv e) = hide (s.setDiv e) := by
  simp [hide, State.setDiv]

@[simp] theorem hide_setSqrt_hide (e : SqrtEngine) : hide ((hide s).setSqrt e) = hide (s.setSqrt e) := by
  simp [hide, State.setSqrt]

@[simp] theorem hide_raise_hide (f : FaultEntry) : hide (raise f (hide s)) = hide (raise f s) := by
  cases f <;> simp [hide, raise, recordInHardware]

/-- The engine that steps is BUSY, so its registers are not hidden. -/
theorem hide_engineStep_hide {e : Engine} (hbusy : s.core.status e = .busy) :
    hide (engineStep e (hide s)) = hide (engineStep e s) := by
  cases e with
  | mul => simp [engineStep, hideMul_of_busy hbusy]
  | div => simp [engineStep, hideDiv_of_busy hbusy]
  | sqrt => simp [engineStep, hideSqrt_of_busy hbusy]

end

/-! ## Outcomes up to `hide` -/

/-- The outcome with what 10_state.md R32 calls unspecified forgotten. -/
def hideOutcome : Host.Outcome State Fault Refusal → Host.Outcome State Fault Refusal
  | .next s => .next (hide s)
  | .fault f => .fault f
  | .refused r => .refused r

theorem sameOutcome_iff (a b : Host.Outcome State Fault Refusal) : SameOutcome a b ↔ hideOutcome a = hideOutcome b := by
  cases a <;> cases b <;> simp [SameOutcome, SameButHidden, hideOutcome]

@[simp] theorem hideOutcome_next (s : State) : hideOutcome (.next s) = .next (hide s) := rfl

theorem hideOutcome_exec_hide (i : Instr) (s : State) : hideOutcome (exec i (hide s)) = hideOutcome (exec i s) := by
  cases i with
  | mul a b => simp only [exec, execMul, ifReady, ready_hide]; split <;> simp
  | div a b =>
    simp only [exec, execDiv, ifReady, startDiv, ready_hide]
    split
    · split <;> simp
    · simp
  | sqrt a b => simp only [exec, execSqrt, ifReady, ready_hide]; split <;> simp
  | reserved a b => simp [exec, execReserved]

theorem hideOutcome_presentInstr_hide (i : Instr) (s : State) :
    hideOutcome (presentInstr i (hide s)) = hideOutcome (presentInstr i s) := by
  rw [presentInstr, afterPresent_hide, hideOutcome_exec_hide, presentInstr]

theorem hideOutcome_presentWord_hide (w : Nat) (s : State) :
    hideOutcome (presentWord w (hide s)) = hideOutcome (presentWord w s) := by
  unfold presentWord
  split
  · exact hideOutcome_presentInstr_hide _ s
  · rfl

/-- The operands are the host's alone. -/
theorem hideOutcome_presentOperands_hide (op : BitVec 2) (a b : Operand) (s : State) :
    hideOutcome (presentOperands op a b (hide s)) = hideOutcome (presentOperands op a b s) := by
  simp only [presentOperands, hide_host]
  cases evalOperand a s.host.vars with
  | fault | refused => rfl
  | next x =>
    cases evalOperand b s.host.vars with
    | fault | refused => rfl
    | next y => exact hideOutcome_presentWord_hide _ s

theorem hideOutcome_runStmt_hide (st : HostStmt) (s : State) :
    hideOutcome (runStmt st (hide s)) = hideOutcome (runStmt st s) := by
  cases st with
  | mul a b => exact hideOutcome_presentOperands_hide _ a b s
  | div a b => exact hideOutcome_presentOperands_hide _ a b s
  | sqrt a => exact hideOutcome_presentOperands_hide _ a (.lit 0) s
  | rsvd a b => exact hideOutcome_presentOperands_hide _ a b s
  | cmd w => exact hideOutcome_presentWord_hide w s
  | rdstat | rd | poll | reset => simp [runStmt]

theorem hideOutcome_step_hide (s : State) : hideOutcome (step (hide s)) = hideOutcome (step s) := by
  cases hagent : nextAgent s with
  | none => simp [step, hagent]
  | some a =>
    cases a with
    | host =>
      simp only [step, nextAgent_hide, hagent, hostStep, tick_hide, hide_host]
      split
      · exact hideOutcome_runStmt_hide _ _
      · simp
    | engine e =>
      have hbusy : s.tick.core.status e = .busy := busy_of_moves (s := s) hagent
      simp [step, hagent, hide_engineStep_hide _ hbusy]

/-- Settles O57: both states act and show as what they have in common, the state with those registers forgotten. -/
theorem hiddenRegistersShowOnlyWhileBusy : Obligations.HiddenRegistersShowOnlyWhileBusy := by
  intro s t hsame
  have hsame : hide s = hide t := hsame
  refine ⟨?_, ?_, fun e => ?_⟩
  · rw [sameOutcome_iff, ← hideOutcome_step_hide s, hsame, hideOutcome_step_hide t]
  · rw [← statusWord_hide s, hsame, statusWord_hide t]
  · rw [← readResult_hide s, hsame, readResult_hide t]

end Sys2Proof.Proofs
end

section
/-!
PROOFS. The block's memory (20_memory.md): a result register keeps what it holds until its own engine steps, a command to
that engine or a RESET (R55), and any enabled agent may be the next to move (R56).
-/
namespace Sys2Proof.Proofs

open Sys2Proof.Machine Sys2Proof.Safety Sys2Proof.Laws

/-! ## What a step leaves of an engine -/

/-- Both blocks have this engine in the same state, with the same contents of its result register. -/
def SameShown (e : Engine) (c d : CoreState) : Prop := d.status e = c.status e ∧ d.resultReg e = c.resultReg e

theorem SameShown.refl (e : Engine) (c : CoreState) : SameShown e c c := ⟨rfl, rfl⟩

theorem SameShown.readResult_eq {e : Engine} {c d : CoreState} (h : SameShown e c d) :
    readResult e d = readResult e c := by
  simp only [readResult, h.1, h.2]

/-- An engine's step writes its own engine alone (40_command.md R86). -/
theorem engineStep_sameShown_other {e e' : Engine} (hne : e' ≠ e) (s : State) :
    SameShown e' s.core (engineStep e s).core := by
  refine ⟨engineStep_status_other hne s, ?_⟩
  cases e <;> cases e' <;> simp [engineStep] at hne ⊢

/-- A fault writes no engine but, division by zero, DIV (60_exceptions.md R160). -/
theorem raise_sameShown {e : Engine} {f : FaultEntry} (hf : e = .div → ∀ a, f ≠ .divByZero a) (s : State) :
    SameShown e s.core (raise f s).core := by
  cases e with
  | mul => simp [SameShown]
  | sqrt => simp [SameShown]
  | div =>
    rcases raise_div f s with hsame | ⟨⟨a, ha⟩, -⟩
    · simp [SameShown, hsame]
    · exact absurd ha (hf rfl a)

/-- A command writes no engine but the one it addresses (40_command.md R80). -/
theorem exec_sameShown_other {i : Instr} {e : Engine} {s t : State} (hi : engineOf i ≠ some e)
    (h : exec i s = .next t) : SameShown e s.core t.core := by
  rcases exec_cases h with ⟨a, b, rfl, -, rfl⟩ | ⟨a, b, rfl, -, -, rfl⟩ | ⟨a, b, rfl, -, rfl⟩ | ⟨a, rfl, -, rfl⟩ |
    ⟨_, _, -, rfl⟩ | ⟨_, -, -, rfl⟩
  · cases e <;> simp [engineOf, SameShown] at hi ⊢
  · cases e <;> simp [engineOf, SameShown] at hi ⊢
  · cases e <;> simp [engineOf, SameShown] at hi ⊢
  · exact raise_sameShown (fun he => absurd (congrArg some he.symm) hi) s
  · exact raise_sameShown (by simp) s
  · exact raise_sameShown (by simp) s

/-- A result read writes nothing in the block, whether it gives a value or not (40_command.md R85). -/
@[simp] theorem readInto_core (e : Engine) (v : Nat) (s : State) : (readInto e v s).core = s.core := by
  unfold readInto
  split <;> rfl

@[simp] theorem pollOnce_core (e : Engine) (v : Nat) (s : State) : (pollOnce e v s).core = s.core := by
  unfold pollOnce
  split <;> rfl

/-- A host statement writes an engine by a command to it or by RESET alone. -/
theorem runStmt_sameShown {st : HostStmt} {e : Engine} {s t : State} (hcommand : commandedEngine st ≠ some e)
    (hreset : st ≠ .reset) (h : runStmt st s = .next t) : SameShown e s.core t.core := by
  rcases runStmt_cases h with ⟨i, hi, hexec⟩ | ⟨v, -, rfl⟩ | ⟨e', v, -, rfl⟩ | ⟨e', v, -, rfl⟩ | ⟨hst, -⟩
  · simpa using exec_sameShown_other (hi ▸ hcommand) hexec
  · exact .refl e s.core
  · simpa using SameShown.refl e s.core
  · simpa using SameShown.refl e s.core
  · exact absurd hst hreset

/-- A step writes an engine by that engine's own step, by a command to it or by RESET alone (20_memory.md R55). -/
theorem step_sameShown {e : Engine} {s t : State} (hmoves : nextAgent s ≠ some (.engine e)) (hreset : ¬ Resets s)
    (hcommand : ¬ Commands e s) (h : step s = .next t) : SameShown e s.core t.core := by
  rcases step_cases h with ⟨-, rfl⟩ | ⟨e', hagent, rfl⟩ | ⟨st, hruns, hrun⟩
  · exact .refl e t.core
  · have hne : e ≠ e' := fun he => hmoves (he ▸ hagent)
    exact engineStep_sameShown_other hne s.tick
  · have hnot : st ≠ .reset := fun hst => by subst hst; exact hreset hruns
    exact runStmt_sameShown (s := s.tick) (fun hst => hcommand ⟨st, hruns, hst⟩) hnot hrun

/-- Settles O53: a DONE engine is not BUSY, so it has no step of its own to take. -/
theorem doneResultStaysUntilCommandOrReset : Obligations.DoneResultStaysUntilCommandOrReset := by
  intro e s t hdone hstep hreset hcommand
  have hmoves : nextAgent s ≠ some (.engine e) := fun hagent => by simp [busy_of_moves hagent] at hdone
  have hsame := step_sameShown hmoves hreset hcommand hstep
  exact ⟨hsame.1.trans hdone, hsame.readResult_eq⟩

/-! ## The free interleaving -/

/-- An enabled agent that the schedule lists next moves next. -/
theorem nextAgent_of_scheduled {s : State} {a : Agent} (h : enabled a s = true) (rest : List Agent) :
    nextAgent { s with schedule := a :: rest } = some a :=
  nextAgent_eq_asked (s := { s with schedule := a :: rest }) h

/-- Settles O33: a BUSY engine, and a host with a statement, are enabled whatever the schedule is. -/
theorem anyEnabledAgentMayMoveNext : Obligations.AnyEnabledAgentMayMoveNext := by
  intro s rest
  refine ⟨fun e hbusy => ?_, fun st hst => ?_⟩
  · have henabled : enabled (.engine e) s = true := by simp [enabled, hbusy]
    simp only [step, nextAgent_of_scheduled henabled rest, State.tick, List.tail_cons]
  · have henabled : enabled .host s = true := by simp [enabled, hst]
    exact step_of_hostRuns ⟨nextAgent_of_scheduled henabled rest, hst⟩

end Sys2Proof.Proofs
end

section
/-!
PROOFS. The command word (30_encoding.md): its fields, the decoder and the encoder as inverses (R60 to R69), the
host steps that present a word (R66), the reserved encoding (R64), and a turn of `WAIT` (R67).
-/
namespace Sys2Proof.Proofs

open Sys2Proof.Machine Sys2Proof.Safety Sys2Proof.Laws

/-! ## The fields of a command word -/

@[simp] theorem opField_commandWord (op : BitVec 2) (a b : Word) : opField (commandWord op a b) = op := by
  rw [opField, commandWord, BitVec.extractLsb'_append_eq_of_le (by decide)]
  exact BitVec.extractLsb'_append_eq_left

@[simp] theorem aField_commandWord (op : BitVec 2) (a b : Word) : aField (commandWord op a b) = a := by
  rw [aField, commandWord, BitVec.extractLsb'_append_eq_of_le (by decide)]
  exact BitVec.extractLsb'_append_eq_right

@[simp] theorem bField_commandWord (op : BitVec 2) (a b : Word) : bField (commandWord op a b) = b :=
  BitVec.extractLsb'_append_eq_right

/-- The three fields are the whole word (30_encoding.md R60). -/
theorem commandWord_fields (w : Cmd) : commandWord (opField w) (aField w) (bField w) = w := by
  have hhigh : opField w ++ aField w = w.extractLsb' 16 18 := BitVec.extractLsb'_append_extractLsb'_eq_extractLsb' rfl
  rw [commandWord, hhigh]
  exact BitVec.extractLsb'_append_extractLsb'

theorem commandWord_of_opField {w : Cmd} {op : BitVec 2} (h : opField w = op) :
    commandWord op (aField w) (bField w) = w := by
  rw [← h, commandWord_fields]

/-- `OP` of a word as a number (30_encoding.md R69). -/
theorem opField_toNat (w : Cmd) : (opField w).toNat = w.toNat / 2 ^ 32 := by
  rw [opField, BitVec.extractLsb'_toNat, Nat.shiftRight_eq_div_pow]
  have := w.isLt
  omega

theorem aField_eq_ofNat (w : Cmd) : aField w = BitVec.ofNat 16 (w.toNat / 2 ^ 16) := by
  rw [aField, BitVec.extractLsb', Nat.shiftRight_eq_div_pow]

theorem bField_eq_ofNat (w : Cmd) : bField w = BitVec.ofNat 16 w.toNat := rfl

/-- `OP` has four values, one for each row of R61. -/
theorem op_cases (op : BitVec 2) : op = 0b00#2 ∨ op = 0b01#2 ∨ op = 0b10#2 ∨ op = 0b11#2 := by
  revert op; decide

/-! ## The decoder and the encoder -/

/-- `OP` selects the command, and its operands are the fields (30_encoding.md R61, R69). -/
theorem decode_commandWord (a b : Word) :
    decode (commandWord 0b00#2 a b) = .mul a b ∧
    decode (commandWord 0b01#2 a b) = .div a b ∧
    decode (commandWord 0b10#2 a b) = .sqrt a b ∧
    decode (commandWord 0b11#2 a b) = .reserved a b := by
  simp [decode]

/-- The decoder undoes the encoder. -/
theorem decode_encode (i : Instr) : decode (encode i) = i := by
  cases i with
  | mul a b => exact (decode_commandWord a b).1
  | div a b => exact (decode_commandWord a b).2.1
  | sqrt a b => exact (decode_commandWord a b).2.2.1
  | reserved a b => exact (decode_commandWord a b).2.2.2

/-- Every word is the word of a command: of the one that its `OP` names, with its two other fields. -/
theorem exists_encode_eq (w : Cmd) : ∃ i, encode i = w := by
  obtain h | h | h | h := op_cases (opField w)
  · exact ⟨.mul (aField w) (bField w), commandWord_of_opField h⟩
  · exact ⟨.div (aField w) (bField w), commandWord_of_opField h⟩
  · exact ⟨.sqrt (aField w) (bField w), commandWord_of_opField h⟩
  · exact ⟨.reserved (aField w) (bField w), commandWord_of_opField h⟩

/-- The encoder undoes the decoder. -/
theorem encode_decode (w : Cmd) : encode (decode w) = w := by
  obtain ⟨i, rfl⟩ := exists_encode_eq w
  rw [decode_encode]

/-- Settles O1: the fields of `{op, a, b}` are `op`, `a` and `b`, and a word on the wires is never too wide. -/
theorem decodeOfEncodeIsTheCommand : Obligations.DecodeOfEncodeIsTheCommand := by
  intro i _
  exact ⟨decode_encode i, by rw [decodeWord_toNat, decode_encode]⟩

/-- Settles O2: every word is the word of some command. -/
theorem encodeOfDecodeIsTheWord : Obligations.EncodeOfDecodeIsTheWord := encode_decode

/-- The command that a word decodes to, by the number its `OP` stands for and with its fields as numbers. -/
theorem decode_of_op (w : Cmd) :
    (w.toNat / 2 ^ 32 = 0 → decode w = .mul (BitVec.ofNat 16 (w.toNat / 2 ^ 16)) (BitVec.ofNat 16 w.toNat)) ∧
    (w.toNat / 2 ^ 32 = 1 → decode w = .div (BitVec.ofNat 16 (w.toNat / 2 ^ 16)) (BitVec.ofNat 16 w.toNat)) ∧
    (w.toNat / 2 ^ 32 = 2 → decode w = .sqrt (BitVec.ofNat 16 (w.toNat / 2 ^ 16)) (BitVec.ofNat 16 w.toNat)) ∧
    (w.toNat / 2 ^ 32 = 3 → decode w = .reserved (BitVec.ofNat 16 (w.toNat / 2 ^ 16)) (BitVec.ofNat 16 w.toNat)) := by
  have hword (op : BitVec 2) (h : w.toNat / 2 ^ 32 = op.toNat) : commandWord op (aField w) (bField w) = w :=
    commandWord_of_opField (BitVec.eq_of_toNat_eq ((opField_toNat w).trans h))
  obtain ⟨hmul, hdiv, hsqrt, hreserved⟩ := decode_commandWord (aField w) (bField w)
  rw [← aField_eq_ofNat, ← bField_eq_ofNat]
  refine ⟨fun h => ?_, fun h => ?_, fun h => ?_, fun h => ?_⟩
  · rw [← hmul, hword 0b00#2 h]
  · rw [← hdiv, hword 0b01#2 h]
  · rw [← hsqrt, hword 0b10#2 h]
  · rw [← hreserved, hword 0b11#2 h]

/-- The table row of a command selects its word (30_encoding.md R69). -/
theorem encode_masked (i : Instr) : encode i &&& tableMask = i.tableMatch := by
  cases i with
  | mul a b => exact TableRow.mul a b
  | div a b => exact TableRow.div a b
  | sqrt a b => exact TableRow.sqrt a b
  | reserved a b => exact TableRow.reserved a b

/-- Settles O3: a word is that of the command it decodes to, so the table row of the command selects it. -/
theorem opFieldSelectsTheCommand : Obligations.OpFieldSelectsTheCommand := by
  intro w
  obtain ⟨hmul, hdiv, hsqrt, hreserved⟩ := decode_of_op w
  refine ⟨hmul, hdiv, hsqrt, hreserved, ?_⟩
  calc
    w &&& tableMask = encode (decode w) &&& tableMask := by rw [encode_decode]
    _ = (decode w).tableMatch := encode_masked (decode w)

/-- Settles O4: seven given words, each decoded by evaluation. -/
theorem exampleWordsDecode : Obligations.ExampleWordsDecode := by
  unfold Obligations.ExampleWordsDecode
  decide

/-! ## The commands that the encoding alone settles -/

/-- Settles O6: an accepted SQRT writes what `initSqrt` makes of `A` alone, and `OP` alone makes a word a SQRT. -/
theorem sqrtIgnoresB : Obligations.SqrtIgnoresB := by
  refine ⟨fun a b b' s hready => ?_, fun w hlow hhigh => ?_⟩
  · have hexec (b : Word) : exec (.sqrt a b) s = .next (s.setSqrt (initSqrt a)) :=
      congrArg Host.Outcome.next (ifReady_of_ready hready _ _)
    rw [hexec b, hexec b']
  · have hfits : w < 2 ^ 34 := by omega
    obtain ⟨-, -, hsqrt, -⟩ := decode_of_op (BitVec.ofNat 34 w)
    rw [BitVec.toNat_ofNat, Nat.mod_eq_of_lt hfits] at hsqrt
    rcases decodeWord_cases w with ⟨-, hword⟩ | ⟨hwide, -⟩
    · rw [hword, hsqrt (by omega)]
    · omega

/-- Settles O10: what cause 2 of 60_exceptions.md R160 records and sets, with the word written out by R60. -/
theorem reservedSetsCmdErr : Obligations.ReservedSetsCmdErr := fun _ _ _ => rfl

/-! ## Host steps that present a word -/

/-- Settles O5: the decoder refuses the number, and the host's step stops as the decoder says. -/
theorem widerWordsAreRefused : Obligations.WiderWordsAreRefused := by
  intro w s hwide
  refine ⟨?_, fun hruns => ?_⟩
  · rcases decodeWord_cases w with ⟨hfits, -⟩ | ⟨-, hword⟩
    · omega
    · exact hword
  · rw [step_of_hostRuns hruns]
    rcases presentWord_cases w s.tick with ⟨hfits, -⟩ | ⟨-, hpresent⟩
    · omega
    · exact hpresent

theorem presentWord_of_decodeWord {w : Nat} {i : Instr} (h : decodeWord w = .ok i) (s : State) :
    presentWord w s = exec i (afterPresent i s) := by
  simp only [presentWord, h, presentInstr]

/-- Settles O36: the host's statement presents the word, and the block runs the command it decodes to. -/
theorem stepRunsTheDecodedCommand : Obligations.StepRunsTheDecodedCommand := by
  intro s w i hruns hword _
  rw [step_of_hostRuns hruns]
  exact presentWord_of_decodeWord hword s.tick

/-- Two operands with values are presented as the word made of them (30_encoding.md R66). -/
theorem presentOperands_of_values {op : BitVec 2} {a b : Operand} {x y : Word} {i : Instr} {s : State}
    (ha : evalOperand a s.host.vars = .next x) (hb : evalOperand b s.host.vars = .next y)
    (hi : decode (commandWord op x y) = i) : presentOperands op a b s = exec i (afterPresent i s) := by
  simp only [presentOperands, ha, hb, andThen_next]
  exact presentWord_of_decodeWord (by rw [decodeWord_toNat, hi]) s

/-- Settles O37: each statement presents `{op, x, y}` with its own `OP`, SQRT with 0 for `y`. -/
theorem commandStatementsPresentTheirWord : Obligations.CommandStatementsPresentTheirWord := by
  intro s a b x y ha hb
  obtain ⟨hmul, hdiv, -, hreserved⟩ := decode_commandWord x y
  obtain ⟨-, -, hsqrt, -⟩ := decode_commandWord x 0#16
  have hzero : evalOperand (.lit 0) s.host.vars = .next 0#16 := rfl
  refine ⟨fun h => ?_, fun h => ?_, fun h => ?_, fun h => ?_⟩ <;> rw [step_of_hostRuns h]
  · exact presentOperands_of_values (s := s.tick) ha hb hmul
  · exact presentOperands_of_values (s := s.tick) ha hb hdiv
  · exact presentOperands_of_values (s := s.tick) ha hzero hsqrt
  · exact presentOperands_of_values (s := s.tick) ha hb hreserved

/-! ## A turn of `WAIT` -/

/-- What ends a `WAIT` (30_encoding.md R67), in engine states: `CMD_ERR` is not among it. -/
theorem endsWait_statusWord (e : Engine) (c : CoreState) :
    endsWait e (statusWord c) = true ↔ c.status e = .done ∨ (e = .div ∧ c.div.st = .fault) := by
  simp [endsWait]

/-- A turn of `WAIT` that ends it goes on to the next statement. -/
theorem pollOnce_of_ends {e : Engine} {s : State} (h : endsWait e (statusWord s.core) = true) (v : Nat) :
    pollOnce e v s = (readStatus v s).nextStmt := if_pos h

/-- A turn of `WAIT` that does not end it stays at its statement. -/
theorem pollOnce_of_not_ends {e : Engine} {s : State} (h : ¬endsWait e (statusWord s.core) = true) (v : Nat) :
    pollOnce e v s = readStatus v s := if_neg h

/-- Settles O45: a turn is a `STATUS` read; the next statement follows exactly when the status word ends the wait. -/
theorem waitEndsOnDoneOrDivFaultAlone : Obligations.WaitEndsOnDoneOrDivFaultAlone := by
  intro s e v hruns
  refine ⟨pollOnce e v s.tick, step_of_hostRuns hruns, ?_⟩
  rw [← endsWait_statusWord]
  by_cases hends : endsWait e (statusWord s.core) = true
  · rw [pollOnce_of_ends (s := s.tick) hends]
    simp [hends]
  · rw [pollOnce_of_not_ends (s := s.tick) hends]
    simp [hends]

end Sys2Proof.Proofs
end

section
/-!
PROOFS. Command acceptance (40_command.md R80 to R82, 60_exceptions.md R160): an accepted command starts its operation,
any other raises one fault, and neither touches anything else.
-/
namespace Sys2Proof.Proofs

open Sys2Proof.Machine Sys2Proof.Safety Sys2Proof.Laws

/-! ## The state after acceptance -/

/-- The state in which the engine of `i` has just accepted `i` (40_command.md R80, R82). -/
def startOperation (i : Instr) (s : State) : State :=
  match i with
  | .mul a b => s.setMul (initMul a b)
  | .div a b => s.setDiv (initDiv a b)
  | .sqrt a _ => s.setSqrt (initSqrt a)
  | .reserved _ _ => s

section
variable (i : Instr) (s : State)

@[simp] theorem startOperation_host : (startOperation i s).host = s.host := by cases i <;> rfl
@[simp] theorem startOperation_schedule : (startOperation i s).schedule = s.schedule := by cases i <;> rfl
@[simp] theorem startOperation_draws : (startOperation i s).draws = s.draws := by cases i <;> rfl
@[simp] theorem startOperation_faults : (startOperation i s).faults = s.faults := by cases i <;> rfl
@[simp] theorem startOperation_cmdErr : (startOperation i s).core.cmdErr = s.core.cmdErr := by cases i <;> rfl

end

/-- A command that is accepted finds its engine IDLE or DONE (40_command.md R81). -/
theorem ready_of_accepts {i : Instr} {e : Engine} {c : CoreState} (h : accepts i c = true) (hi : engineOf i = some e) :
    ready e c = true := by
  cases i <;> cases hi
  case mul => exact h
  case div => exact (Bool.and_eq_true_iff.1 h).1
  case sqrt => exact h

/-- A command starts its operation or raises a fault, as it is accepted or not. The fault is division by zero only from
a DIV that finds its engine ready (60_exceptions.md R162). -/
theorem exec_start_or_raise {i : Instr} {s t : State} (h : exec i s = .next t) :
    (accepts i s.core = true ∧ t = startOperation i s) ∨
    (accepts i s.core = false ∧ ∃ f, t = raise f s ∧
      ∀ a, f = .divByZero a → engineOf i = some .div ∧ ready .div s.core = true) := by
  rcases exec_cases h with ⟨a, b, rfl, hr, rfl⟩ | ⟨a, b, rfl, hr, hb, rfl⟩ | ⟨a, b, rfl, hr, rfl⟩ |
    ⟨a, rfl, hr, rfl⟩ | ⟨a, b, rfl, rfl⟩ | ⟨e, hi, hr, rfl⟩
  · exact .inl ⟨hr, rfl⟩
  · exact .inl ⟨by simp [accepts, hr, hb], rfl⟩
  · exact .inl ⟨hr, rfl⟩
  · exact .inr ⟨by simp [accepts], _, rfl, fun _ _ => ⟨rfl, hr⟩⟩
  · exact .inr ⟨rfl, _, rfl, nofun⟩
  · refine .inr ⟨?_, _, rfl, nofun⟩
    rw [← Bool.not_eq_true]
    intro hacc
    simp [ready_of_accepts hacc hi] at hr

/-- An accepted command starts its operation. -/
theorem exec_of_accepts {i : Instr} {s : State} (h : accepts i s.core = true) :
    exec i s = .next (startOperation i s) := by
  obtain ⟨t, ht⟩ := exec_eq_next i s
  rcases exec_start_or_raise ht with ⟨-, rfl⟩ | ⟨hnot, -⟩
  · exact ht
  · simp [h] at hnot

/-- A command to an engine that is not ready raises cause 3 (60_exceptions.md R160). -/
theorem exec_of_not_ready {i : Instr} {e : Engine} {s : State} (hi : engineOf i = some e) (h : ready e s.core = false) :
    exec i s = .next (raise (.engineNotReady e (encode i)) s) := by
  cases i <;> cases hi <;> exact congrArg Host.Outcome.next (ifReady_of_not_ready h _ _)

/-- Settles O7: an IDLE or DONE engine accepts MUL, and `initMul` is what R103 writes. -/
theorem mulIsAccepted : Obligations.MulIsAccepted := fun a b _ h =>
  exec_of_accepts (i := .mul a b) ((ready_iff .mul _).2 h)

/-- Settles O8: an IDLE or DONE engine accepts DIV by a nonzero divisor, and `initDiv` is what R123 writes. -/
theorem divIsAccepted : Obligations.DivIsAccepted := by
  intro a b s h hb
  have hacc : accepts (.div a b) s.core = true := by simp [accepts, hb, (ready_iff .div _).2 h]
  rw [exec_of_accepts hacc, BitVec.ofNat_toNat]
  rfl

/-- Settles O9: an IDLE or DONE engine accepts SQRT, and `initSqrt` is what R143 writes. -/
theorem sqrtIsAccepted : Obligations.SqrtIsAccepted := fun a b _ h =>
  exec_of_accepts (i := .sqrt a b) ((ready_iff .sqrt _).2 h)

/-- Settles O12: what cause 3 of 60_exceptions.md R160 records and sets, with the word written out by R60. -/
theorem commandToBusyOrFaultedEngineIsRefused : Obligations.CommandToBusyOrFaultedEngineIsRefused := fun a b _ =>
  ⟨fun h => exec_of_not_ready (i := .mul a b) rfl ((not_ready_iff .mul _).2 h),
    fun h => exec_of_not_ready (i := .div a b) rfl ((not_ready_iff .div _).2 h),
    fun h => exec_of_not_ready (i := .sqrt a b) rfl ((not_ready_iff .sqrt _).2 h)⟩

/-! ## What a command writes and leaves unchanged -/

/-- Both blocks have this engine the same, register by register. -/
def SameEngine (e : Engine) (c d : CoreState) : Prop :=
  match e with
  | .mul => d.mul = c.mul
  | .div => d.div = c.div
  | .sqrt => d.sqrt = c.sqrt

theorem SameEngine.refl (e : Engine) (c : CoreState) : SameEngine e c c := by cases e <;> rfl

/-- What acceptance writes into the engine is made of the command alone (40_command.md R82). -/
theorem startOperation_sameEngine {i : Instr} {e : Engine} (hi : engineOf i = some e) (s s' : State) :
    SameEngine e (startOperation i s').core (startOperation i s).core := by
  cases i <;> cases hi <;> rfl

theorem startOperation_sameEngine_other {i : Instr} {e : Engine} (hi : engineOf i ≠ some e) (s : State) :
    SameEngine e s.core (startOperation i s).core := by
  cases i <;> cases e
  case mul.mul | div.div | sqrt.sqrt => exact absurd rfl hi
  all_goals rfl

/-- A fault writes no engine but, division by zero, DIV (60_exceptions.md R160). -/
theorem raise_sameEngine {e : Engine} {f : FaultEntry} (hf : e = .div → ∀ a, f ≠ .divByZero a) (s : State) :
    SameEngine e s.core (raise f s).core := by
  cases e with
  | mul => exact raise_mul f s
  | sqrt => exact raise_sqrt f s
  | div =>
    rcases raise_div f s with hsame | ⟨⟨a, ha⟩, -⟩
    · exact hsame
    · exact absurd ha (hf rfl a)

/-- A command writes no register of an engine that it does not address, or that is not ready for it
(40_command.md R80). -/
theorem exec_sameEngine {i : Instr} {e : Engine} {s t : State} (hi : engineOf i = some e → ready e s.core = false)
    (h : exec i s = .next t) : SameEngine e s.core t.core := by
  rcases exec_start_or_raise h with ⟨hacc, rfl⟩ | ⟨-, f, rfl, hzero⟩
  · refine startOperation_sameEngine_other (fun haddr => ?_) s
    have hready := ready_of_accepts hacc haddr
    simp [hi haddr] at hready
  · refine raise_sameEngine (fun he a hf => ?_) s
    subst he
    obtain ⟨haddr, hready⟩ := hzero a hf
    simp [hi haddr] at hready

/-- Settles O16: both states are what `startOperation` makes of the same command. -/
theorem acceptanceForgetsTheEngine : Obligations.AcceptanceForgetsTheEngine := by
  intro i s s' t t' hacc hacc' h h'
  rw [exec_of_accepts hacc] at h
  rw [exec_of_accepts hacc'] at h'
  cases h
  cases h'
  have hsame (e : Engine) (hi : engineOf i = some e) := startOperation_sameEngine hi s s'
  exact ⟨hsame .mul, hsame .div, hsame .sqrt⟩

/-- Settles O15: both a started operation and a fault leave alone all that the statement names. -/
theorem commandFrame : Obligations.CommandFrame := by
  intro i s t h
  have hother (e : Engine) (hi : engineOf i ≠ some e) : SameEngine e s.core t.core :=
    exec_sameEngine (fun haddr => absurd haddr hi) h
  have hmul := hother .mul
  have hdiv := hother .div
  have hsqrt := hother .sqrt
  rcases exec_start_or_raise h with ⟨-, rfl⟩ | ⟨hnot, f, rfl, -⟩
  · exact ⟨startOperation_host i s, startOperation_schedule i s, startOperation_draws i s, hmul, hdiv, hsqrt,
      .inl (startOperation_cmdErr i s), .inl (startOperation_faults i s),
      fun _ => ⟨startOperation_cmdErr i s, startOperation_faults i s⟩⟩
  · exact ⟨rfl, rfl, rfl, hmul, hdiv, hsqrt, raise_cmdErr f s, .inr ⟨f, rfl⟩, fun hacc => by simp [hacc] at hnot⟩

end Sys2Proof.Proofs
end

section
/-!
PROOFS. Agents and reads (40_command.md R80 and R83 to R86): who moves, what an engine's step writes, and what a
`STATUS` read and a result read write.
-/
namespace Sys2Proof.Proofs

open Sys2Proof.Machine Sys2Proof.Safety Sys2Proof.Laws

/-! ## Agents -/

/-- Nobody is enabled exactly when the host has no statement and no engine is BUSY (40_command.md R83). -/
theorem nobody_enabled_iff (s : State) :
    (∀ a, enabled a s = false) ↔ s.host.current = none ∧ ∀ e, s.core.status e ≠ .busy := by
  refine ⟨fun h => ⟨?_, fun e => ?_⟩, fun ⟨hhost, hengines⟩ a => ?_⟩
  · simpa [enabled] using h .host
  · simpa [enabled] using h (.engine e)
  · cases a with
    | host => simp [enabled, hhost]
    | engine e => simp [enabled, hengines e]

/-- Settles O32: the agent that moves is enabled, and somebody moves when anybody is. -/
theorem onlyEnabledAgentsMove : Obligations.OnlyEnabledAgentsMove := fun s =>
  ⟨fun _ => busy_of_moves, fun h => Option.isSome_iff_exists.1 (nextAgent_enabled h),
    nextAgent_eq_none.trans (nobody_enabled_iff s)⟩

/-! ## An engine's step -/

@[simp] theorem engineStep_faults (e : Engine) (s : State) : (engineStep e s).faults = s.faults := by cases e <;> rfl
@[simp] theorem engineStep_cmdErr (e : Engine) (s : State) : (engineStep e s).core.cmdErr = s.core.cmdErr := by
  cases e <;> rfl

/-- An engine's step writes no register of another engine (40_command.md R86). -/
theorem engineStep_sameEngine_other {e e' : Engine} (hne : e ≠ e') (s : State) :
    SameEngine e' s.core (engineStep e s).core := by
  cases e <;> cases e'
  case mul.mul | div.div | sqrt.sqrt => exact absurd rfl hne
  all_goals rfl

theorem step_of_engine_moves {e : Engine} {s : State} (h : nextAgent s = some (.engine e)) :
    step s = .next (engineStep e s.tick) := by
  simp only [step, h]

/-- Settles O34: settling an engine hides what R32 leaves unspecified, and no other engine is written. -/
theorem engineStepTouchesItsEngineAlone : Obligations.EngineStepTouchesItsEngineAlone := by
  intro e s h
  have hother (e' : Engine) (hne : e ≠ e') := engineStep_sameEngine_other hne s.tick
  refine ⟨engineStep e s.tick, step_of_engine_moves h, ?_, hother .mul, ?_, hother .div, ?_, hother .sqrt,
    engineStep_cmdErr e s.tick, engineStep_faults e s.tick, engineStep_host e s.tick⟩
  · rintro rfl; exact hideMul_settleMul _ _
  · rintro rfl; exact hideDiv_settleDiv _ _
  · rintro rfl; exact hideSqrt_settleSqrt _ _

/-! ## Reads -/

/-- Settles O42: the step writes `STATUS` into the one variable and moves the host on. -/
theorem statusReadChangesNothingOfTheBlock : Obligations.StatusReadChangesNothingOfTheBlock := by
  intro s v hruns
  exact ⟨(readStatus v s.tick).nextStmt, step_of_hostRuns hruns, getVar_setVar_same _ _ _, rfl, rfl, rfl, rfl, rfl,
    fun u hu => getVar_setVar_other hu _ _⟩

/-- A result read that gives a value writes it into the variable, and nothing else. -/
theorem readInto_of_value {e : Engine} {s : State} {n : Nat} (h : readResult e s.core = some n) (v : Nat) :
    readInto e v s = { s with host := { s.host with vars := setVar v n s.host.vars } } := by
  simp only [readInto, h]

/-- A result read that gives no value unsets the variable and records cause 4 (60_exceptions.md R160, R167). -/
theorem readInto_of_no_value {e : Engine} {s : State} (h : readResult e s.core = none) (v : Nat) :
    readInto e v s = raise (.resultNotReady e) { s with host := { s.host with vars := eraseVar v s.host.vars } } := by
  simp only [readInto, h]

theorem readResult_of_done {e : Engine} {c : CoreState} (h : c.status e = .done) : readResult e c = c.resultReg e :=
  if_pos h

theorem readResult_of_not_done {e : Engine} {c : CoreState} (h : c.status e ≠ .done) : readResult e c = none :=
  if_neg h

/-- Settles O43: a DONE engine's register is what a read gives; without a value the variable is unset. -/
theorem resultReadGivesAValueOnlyWhenDone : Obligations.ResultReadGivesAValueOnlyWhenDone := by
  intro s e r hruns
  refine ⟨(readInto e r s.tick).nextStmt, step_of_hostRuns hruns, by simp, fun n hdone hreg => ?_, fun hnot => ?_⟩
  · rw [readInto_of_value (s := s.tick) ((readResult_of_done hdone).trans hreg)]
    exact ⟨getVar_setVar_same _ _ _, rfl⟩
  · rw [readInto_of_no_value (s := s.tick) (readResult_of_not_done hnot)]
    exact ⟨rfl, fun _ => getVar_eraseVar_same _ _⟩

end Sys2Proof.Proofs
end

section
/-!
PROOFS. An operation under way (40_command.md R88, R89): acceptance starts it, and every step but RESET or a command to
its DONE engine keeps it, until the engine is DONE with its value.
-/
namespace Sys2Proof.Proofs

open Sys2Proof.Machine Sys2Proof.Safety Sys2Proof.Laws

/-- The engine of `i` runs, or has finished, the operation of `i`. -/
def UnderWay (i : Instr) (c : CoreState) : Prop :=
  match i with
  | .mul x y => MulRuns x y c.mul
  | .div x y => DivRuns x y c.div
  | .sqrt x _ => SqrtRuns x c.sqrt
  | .reserved _ _ => False

/-- The value of a command's operation (41_multiply.md R101, 42_divide.md R121, 43_sqrt.md R141). -/
def commandValue : Instr → Option Nat
  | .mul x y => some (mul16 x.toNat y.toNat)
  | .div x y => div16 x.toNat y.toNat
  | .sqrt x _ => some (isqrt16 x.toNat)
  | .reserved _ _ => none

/-- Acceptance puts the operation under way. -/
theorem underWay_startOperation {i : Instr} {s : State} (h : accepts i s.core = true) :
    UnderWay i (startOperation i s).core := by
  cases i with
  | mul x y => exact .inl (mulBusy_initMul x y)
  | div x y => exact .inl (divBusy_initDiv x (of_decide_eq_true (Bool.and_eq_true_iff.1 h).2))
  | sqrt x b => exact .inl (sqrtBusy_initSqrt x)
  | reserved a b => cases h

section
variable {i : Instr} {e : Engine} {c d : CoreState} (hi : engineOf i = some e)
include hi

theorem busy_or_done_of_underWay (h : UnderWay i c) : c.status e = .busy ∨ c.status e = .done := by
  cases i <;> cases hi
  case mul => exact h.imp (·.busy) (·.1)
  case div => exact h.imp (·.busy) (·.1)
  case sqrt => exact h.imp (·.busy) (·.1)

/-- An operation that is DONE reads its value. -/
theorem readResult_of_underWay (h : UnderWay i c) (hdone : c.status e = .done) : readResult e c = commandValue i := by
  rw [readResult_of_done hdone]
  cases i <;> cases hi
  case mul => exact (h.resolve_left fun hrun => by simp [hrun.busy] at hdone).2
  case div => exact (h.resolve_left fun hrun => by simp [hrun.busy] at hdone).2.2
  case sqrt => exact (h.resolve_left fun hrun => by simp [hrun.busy] at hdone).2

theorem underWay_of_sameEngine (hsame : SameEngine e c d) (h : UnderWay i c) : UnderWay i d := by
  cases i <;> cases hi
  case mul => exact (congrArg (MulRuns _ _) hsame).mpr h
  case div => exact (congrArg (DivRuns _ _) hsame).mpr h
  case sqrt => exact (congrArg (SqrtRuns _) hsame).mpr h

end

/-! ## The operation of a BUSY engine -/

theorem mulBusy_of_mulRuns {x y : Word} {e : MulEngine} (h : MulRuns x y e) (hbusy : e.st = .busy) : MulBusy x y e :=
  h.resolve_right fun hdone => by simp [hdone.1] at hbusy

theorem divBusy_of_divRuns {x y : Word} {e : DivEngine} (h : DivRuns x y e) (hbusy : e.st = .busy) : DivBusy x y e :=
  h.resolve_right fun hdone => by simp [hdone.1] at hbusy

theorem sqrtBusy_of_sqrtRuns {x : Word} {e : SqrtEngine} (h : SqrtRuns x e) (hbusy : e.st = .busy) : SqrtBusy x e :=
  h.resolve_right fun hdone => by simp [hdone.1] at hbusy

/-- The engine's own step keeps its operation under way. -/
theorem underWay_engineStep {i : Instr} {e : Engine} {s : State} (hi : engineOf i = some e) (h : UnderWay i s.core)
    (hbusy : s.core.status e = .busy) : UnderWay i (engineStep e s).core := by
  cases i <;> cases hi
  case mul => exact mulRuns_settle (mulRuns_stepMul (mulBusy_of_mulRuns h hbusy)) _
  case div => exact divRuns_settle (divRuns_stepDiv (divBusy_of_divRuns h hbusy)) _
  case sqrt => exact sqrtRuns_settle (sqrtRuns_stepSqrt (sqrtBusy_of_sqrtRuns h hbusy)) _

/-! ## Every step -/

/-- A host statement writes no register of an engine, but by RESET or a command that finds the engine ready. -/
theorem runStmt_sameEngine {st : HostStmt} {e : Engine} {s t : State}
    (hcommand : commandedEngine st = some e → ready e s.core = false) (hreset : st ≠ .reset)
    (h : runStmt st s = .next t) : SameEngine e s.core t.core := by
  rcases runStmt_cases h with ⟨i, hst, hexec⟩ | ⟨v, -, rfl⟩ | ⟨e', v, -, rfl⟩ | ⟨e', v, -, rfl⟩ | ⟨hst, -⟩
  · simpa using exec_sameEngine (by simpa [hst] using hcommand) hexec
  · exact .refl e s.core
  · simpa using SameEngine.refl e s.core
  · simpa using SameEngine.refl e s.core
  · exact absurd hst hreset

/-- Without a RESET or a command that finds the engine ready, a step is the engine's own or leaves it alone, register by
register. -/
theorem step_own_or_sameEngine {e : Engine} {s t : State} (h : step s = .next t) (hreset : ¬ Resets s)
    (hcommand : Commands e s → ready e s.core = false) :
    (nextAgent s = some (.engine e) ∧ t = engineStep e s.tick) ∨
    (nextAgent s ≠ some (.engine e) ∧ SameEngine e s.core t.core) := by
  rcases step_cases h with ⟨hagent, rfl⟩ | ⟨e', hagent, rfl⟩ | ⟨st, hruns, hrun⟩
  · exact .inr ⟨by simp [hagent], .refl e t.core⟩
  · by_cases he : e' = e
    · exact .inl (he ▸ ⟨hagent, rfl⟩)
    · exact .inr ⟨by simp [hagent, he], engineStep_sameEngine_other he s.tick⟩
  · have hnot : st ≠ .reset := fun hst => by subst hst; exact hreset hruns
    exact .inr ⟨by simp [hruns.1], runStmt_sameEngine (s := s.tick) (fun hst => hcommand ⟨st, hruns, hst⟩) hnot hrun⟩

/-- The key of R88 and R89: an operation under way stays under way, whichever agent steps. -/
theorem underWay_step {i : Instr} {e : Engine} {s t : State} (hi : engineOf i = some e) (h : UnderWay i s.core)
    (hstep : step s = .next t) (hreset : ¬ Resets s) (hcommand : s.core.status e = .done → ¬ Commands e s) :
    UnderWay i t.core := by
  have hlost (hcmd : Commands e s) : ready e s.core = false :=
    (not_ready_iff e _).2 (.inl ((busy_or_done_of_underWay hi h).resolve_right fun hdone => hcommand hdone hcmd))
  rcases step_own_or_sameEngine hstep hreset hlost with ⟨hagent, rfl⟩ | ⟨-, hsame⟩
  · exact underWay_engineStep (s := s.tick) hi h (busy_of_moves (s := s) hagent)
  · exact underWay_of_sameEngine hi hsame h

/-- Settles O50, as the case MUL of an operation under way. -/
theorem mulOperationSurvivesEveryInterleaving : Obligations.MulOperationSurvivesEveryInterleaving := by
  intro x y
  refine ⟨fun s h => ?_, fun s t => underWay_step (i := .mul x y) rfl,
    fun s => readResult_of_underWay (i := .mul x y) rfl⟩
  have hacc : accepts (.mul x y) s.core = true := (ready_iff .mul _).2 h
  exact ⟨_, exec_of_accepts hacc, rfl, underWay_startOperation hacc⟩

/-- Settles O51, as the case DIV of an operation under way. -/
theorem divOperationSurvivesEveryInterleaving : Obligations.DivOperationSurvivesEveryInterleaving := by
  intro x y
  refine ⟨fun s h hy => ?_, fun s t => underWay_step (i := .div x y) rfl,
    fun s => readResult_of_underWay (i := .div x y) rfl⟩
  have hacc : accepts (.div x y) s.core = true := by simp [accepts, hy, (ready_iff .div _).2 h]
  exact ⟨_, exec_of_accepts hacc, rfl, underWay_startOperation hacc⟩

/-- Settles O52, as the case SQRT of an operation under way. -/
theorem sqrtOperationSurvivesEveryInterleaving : Obligations.SqrtOperationSurvivesEveryInterleaving := by
  intro x
  refine ⟨fun b s h => ?_, fun s t => underWay_step (i := .sqrt x 0) rfl,
    fun s => readResult_of_underWay (i := .sqrt x 0) rfl⟩
  have hacc : accepts (.sqrt x b) s.core = true := (ready_iff .sqrt _).2 h
  exact ⟨_, exec_of_accepts hacc, rfl, underWay_startOperation hacc⟩

end Sys2Proof.Proofs
end

section
/-!
PROOFS. Completion under weak fairness (40_command.md R87): each step of a BUSY engine leaves it less to do, and no
other step gives it more.
-/
namespace Sys2Proof.Proofs

open Sys2Proof.Machine Sys2Proof.Safety Sys2Proof.Laws

/-! ## How much a BUSY engine has left to do -/

/-- A bound on the positions MUL has left (41_multiply.md R105). -/
def mulWork (e : MulEngine) : Nat := 16 - e.i.toNat

/-- A bound on the steps DIV has left: at most 17 doublings, the turn, and one level of ASCEND for each doubling
(42_divide.md R125). -/
def divWork (e : DivEngine) : Nat :=
  match e.ph with
  | .descend => 35 - e.k.toNat
  | .ascend => e.k.toNat

/-- The bound of one engine; SQRT has its positions left (43_sqrt.md R145). -/
def workLeft (e : Engine) (c : CoreState) : Nat :=
  match e with
  | .mul => mulWork c.mul
  | .div => divWork c.div
  | .sqrt => c.sqrt.j.toNat

theorem mulWork_stepMul {e : MulEngine} (hstill : (stepMul e).st = .busy) : mulWork (stepMul e) < mulWork e := by
  unfold stepMul at hstill ⊢
  split at hstill
  · cases hstill
  · rename_i hlast
    have hne : e.i ≠ 15#4 := fun h => hlast (by simp [MulEngine.lastPosition, h])
    have hi : e.i.toNat ≠ 15 := fun h => hne (BitVec.eq_of_toNat_eq h)
    have hlt := e.i.isLt
    have hnext : (e.i + 1).toNat = e.i.toNat + 1 := Nat.mod_eq_of_lt (show e.i.toNat + 1 < 2 ^ 4 by omega)
    rw [if_neg hlast]
    simp only [mulWork, hnext]
    omega

theorem sqrtWork_stepSqrt {e : SqrtEngine} (hstill : (stepSqrt e).st = .busy) : (stepSqrt e).j.toNat < e.j.toNat := by
  unfold stepSqrt at hstill ⊢
  split at hstill
  · cases hstill
  · rename_i hj
    have hpos : 1 ≤ e.j.toNat := Nat.pos_of_ne_zero fun h => hj (BitVec.eq_of_toNat_eq h)
    rw [if_neg hj]
    show (e.j - 1).toNat < e.j.toNat
    rw [BitVec.toNat_sub_of_le hpos]
    exact Nat.sub_lt hpos Nat.one_pos

/-- In DESCEND a step doubles, which the operands allow at most 17 times, or turns. -/
theorem divWork_stepDivDescend {x y : Word} {e : DivEngine} (h : DivBusy x y e) (hph : e.ph = .descend)
    (hstill : (stepDivDescend e).st = .busy) : divWork (stepDivDescend e) < divWork e := by
  have hk := k_toNat_le h
  unfold stepDivDescend at hstill ⊢
  by_cases hd : e.d.toNat ≤ e.x.toNat
  · have hnext : (e.k + 1).toNat = e.k.toNat + 1 := Nat.mod_eq_of_lt (show e.k.toNat + 1 < 2 ^ 5 by omega)
    rw [if_pos hd]
    simp only [divWork, hph, hnext]
    omega
  · by_cases hzero : e.k = 0#5
    · simp [hd, hzero] at hstill
    · rw [if_neg hd, if_neg hzero]
      simp only [divWork, hph]
      omega

/-- In ASCEND a step goes up one level. -/
theorem divWork_stepDivAscend {x y : Word} {e : DivEngine} (h : DivBusy x y e) (hph : e.ph = .ascend)
    (hstill : (stepDivAscend e).st = .busy) : divWork (stepDivAscend e) < divWork e := by
  obtain ⟨hk, -⟩ := h.ascending hph
  have hpred := pred_k_toNat h hph
  unfold stepDivAscend at hstill ⊢
  split at hstill
  · cases hstill
  · rename_i hlast
    rw [if_neg hlast]
    simp only [divWork, DivEngine.ascended, hph]
    omega

theorem divWork_stepDiv {x y : Word} {e : DivEngine} (h : DivBusy x y e) (hstill : (stepDiv e).st = .busy) :
    divWork (stepDiv e) < divWork e := by
  unfold stepDiv at hstill ⊢
  cases hph : e.ph <;> simp only [hph] at hstill ⊢
  · exact divWork_stepDivDescend h hph hstill
  · exact divWork_stepDivAscend h hph hstill

/-- An engine's own step that does not complete leaves it less to do. -/
theorem workLeft_engineStep {i : Instr} {e : Engine} {s : State} (hi : engineOf i = some e) (h : UnderWay i s.core)
    (hbusy : s.core.status e = .busy) (hstill : (engineStep e s).core.status e = .busy) :
    workLeft e (engineStep e s).core < workLeft e s.core := by
  cases i <;> cases hi
  case mul =>
    have hst : (stepMul s.core.mul).st = .busy := (settleMul_st _ _).symm.trans hstill
    simpa [workLeft, engineStep, settleMul_of_busy hst] using mulWork_stepMul hst
  case div =>
    have hst : (stepDiv s.core.div).st = .busy := (settleDiv_st _ _).symm.trans hstill
    simpa [workLeft, engineStep, settleDiv_of_busy hst] using divWork_stepDiv (divBusy_of_divRuns h hbusy) hst
  case sqrt =>
    have hst : (stepSqrt s.core.sqrt).st = .busy := (settleSqrt_st _ _).symm.trans hstill
    simpa [workLeft, engineStep, settleSqrt_of_busy hst] using sqrtWork_stepSqrt hst

theorem workLeft_of_sameEngine {e : Engine} {c d : CoreState} (h : SameEngine e c d) : workLeft e d = workLeft e c := by
  cases e
  · exact congrArg mulWork h
  · exact congrArg divWork h
  · exact congrArg (·.j.toNat) h

/-- While an engine stays BUSY, a step without RESET leaves it no more to do, and its own step leaves it less. -/
theorem workLeft_step {i : Instr} {e : Engine} {s t : State} (hi : engineOf i = some e) (h : UnderWay i s.core)
    (hbusy : s.core.status e = .busy) (hstill : t.core.status e = .busy) (hstep : step s = .next t)
    (hreset : ¬ Resets s) :
    workLeft e t.core ≤ workLeft e s.core ∧
      (nextAgent s = some (.engine e) → workLeft e t.core < workLeft e s.core) := by
  have hlost (_ : Commands e s) : ready e s.core = false := (not_ready_iff e _).2 (.inl hbusy)
  rcases step_own_or_sameEngine hstep hreset hlost with ⟨-, rfl⟩ | ⟨hother, hsame⟩
  · have hless := workLeft_engineStep (s := s.tick) hi h hbusy hstill
    exact ⟨hless.le, fun _ => hless⟩
  · exact ⟨(workLeft_of_sameEngine hsame).le, fun hagent => absurd hagent hother⟩

/-! ## Runs -/

/-- A number that never grows from `n` on cannot shrink again and again. -/
theorem not_shrinking_forever {f : Nat → Nat} {n : Nat} (hle : ∀ m, n ≤ m → f (m + 1) ≤ f m)
    (hlt : ∀ m, n ≤ m → ∃ m', m ≤ m' ∧ f (m' + 1) < f m') : False := by
  have hanti {m m' : Nat} (hm : n ≤ m) (hmm : m ≤ m') : f m' ≤ f m := by
    induction m', hmm using Nat.le_induction with
    | base => exact le_rfl
    | succ m' hmm ih => exact (hle m' (hm.trans hmm)).trans ih
  have hnone : ∀ w m, n ≤ m → f m = w → False := by
    intro w
    induction w using Nat.strong_induction_on with
    | h w ih =>
      intro m hm hw
      obtain ⟨m', hmm, hless⟩ := hlt m hm
      exact ih _ (hw ▸ hless.trans_le (hanti hm hmm)) (m' + 1) ((hm.trans hmm).trans (Nat.le_succ m')) rfl
  exact hnone (f n) n le_rfl rfl

/-- R87: under weak fairness an operation that is under way comes to be DONE, unless a RESET comes first. -/
theorem underWay_arrives {r : Nat → State} (hrun : IsRun r) (hfair : WeaklyFair r) {i : Instr} {e : Engine}
    (hi : engineOf i = some e) {n : Nat} (h : UnderWay i (r n).core) :
    ∃ m, n ≤ m ∧ ((UnderWay i (r m).core ∧ (r m).core.status e = .done) ∨ Resets (r m)) := by
  by_contra hnever
  have hreset (m : Nat) (hm : n ≤ m) : ¬ Resets (r m) := fun hr => hnever ⟨m, hm, .inr hr⟩
  have hdone (m : Nat) (hm : n ≤ m) (hway : UnderWay i (r m).core) : (r m).core.status e ≠ .done :=
    fun hd => hnever ⟨m, hm, .inl ⟨hway, hd⟩⟩
  have hway (m : Nat) (hm : n ≤ m) : UnderWay i (r m).core := by
    induction m, hm using Nat.le_induction with
    | base => exact h
    | succ m hm ih => exact underWay_step hi ih (hrun m) (hreset m hm) fun hd => absurd hd (hdone m hm ih)
  have hbusy (m : Nat) (hm : n ≤ m) : (r m).core.status e = .busy :=
    (busy_or_done_of_underWay hi (hway m hm)).resolve_right (hdone m hm (hway m hm))
  have hwork (m : Nat) (hm : n ≤ m) :=
    workLeft_step hi (hway m hm) (hbusy m hm) (hbusy (m + 1) (hm.trans (Nat.le_succ m))) (hrun m) (hreset m hm)
  refine not_shrinking_forever (f := fun m => workLeft e (r m).core) (fun m hm => (hwork m hm).1) fun m hm => ?_
  obtain ⟨m', hmm, hagent⟩ := hfair e m fun k hk => hbusy k (hm.trans hk)
  exact ⟨m', hmm, (hwork m' (hm.trans hmm)).2 hagent⟩

theorem inv_of_isRun {r : Nat → State} (hrun : IsRun r) (h : Inv (r 0)) (n : Nat) : Inv (r n) := by
  induction n with
  | zero => exact h
  | succ n ih => exact stepKeepsTheInvariant _ _ ih (hrun n)

/-- A BUSY engine of a state that meets the invariant has some operation under way. -/
theorem exists_underWay {s : State} (h : Inv s) {e : Engine} (hbusy : s.core.status e = .busy) :
    ∃ i, engineOf i = some e ∧ UnderWay i s.core := by
  cases e with
  | mul =>
    obtain ⟨x, y, hrun⟩ := mulBusy_of_mulOk h.mul hbusy
    exact ⟨.mul x y, rfl, .inl hrun⟩
  | div =>
    obtain ⟨x, y, hrun⟩ := divBusy_of_divOk h.div hbusy
    exact ⟨.div x y, rfl, .inl hrun⟩
  | sqrt =>
    obtain ⟨x, hrun⟩ := sqrtBusy_of_sqrtOk h.sqrt hbusy
    exact ⟨.sqrt x 0, rfl, .inl hrun⟩

/-- Settles O58: the operation of a BUSY engine comes to be DONE, at a later state than the one it is BUSY in. -/
theorem fairRunsComplete : Obligations.FairRunsComplete := by
  intro r hrun hinv hfair e n hbusy
  obtain ⟨i, hi, hway⟩ := exists_underWay (inv_of_isRun hrun hinv n) hbusy
  obtain ⟨m, hm, ⟨-, hdone⟩ | hreset⟩ := underWay_arrives hrun hfair hi hway
  · have hne : m ≠ n := fun h => by simp [h, hbusy] at hdone
    obtain ⟨k, rfl⟩ := Nat.exists_eq_add_of_lt (lt_of_le_of_ne hm hne.symm)
    exact ⟨n + k, Nat.le_add_right n k, .inl hdone⟩
  · exact ⟨m, hm, .inr hreset⟩

/-- The value of an operation under way comes to be read, unless a RESET comes first. -/
theorem value_arrives {r : Nat → State} (hrun : IsRun r) (hfair : WeaklyFair r) {i : Instr} {e : Engine}
    (hi : engineOf i = some e) {n : Nat} (h : UnderWay i (r n).core) :
    ∃ m, n ≤ m ∧ (readResult e (r m).core = commandValue i ∨ Resets (r m)) := by
  obtain ⟨m, hm, harrive⟩ := underWay_arrives hrun hfair hi h
  exact ⟨m, hm, harrive.imp_left fun ⟨hway, hdone⟩ => readResult_of_underWay hi hway hdone⟩

theorem divisor_ne_zero {x y : Word} {e : DivEngine} (h : DivRuns x y e) : y ≠ 0#16 :=
  h.elim (·.yNonzero) (·.2.1)

/-- Settles O59, operation by operation; the value of a DIV is the quotient because its divisor is not 0. -/
theorem fairRunsReachTheValue : Obligations.FairRunsReachTheValue := by
  intro r hrun _ hfair n
  refine ⟨fun x y h => value_arrives hrun hfair (i := .mul x y) rfl h, fun x y h => ?_,
    fun x h => value_arrives hrun hfair (i := .sqrt x 0) rfl h⟩
  rw [← div16_eq (word_le x) (word_pos (divisor_ne_zero h))]
  exact value_arrives hrun hfair (i := .div x y) rfl h

end Sys2Proof.Proofs
end

section
/-!
PROOFS. MUL (41_multiply.md): the last scanned position by the size of `x` (R102), how large the value gets (R104), when
it is the product (R106, R107), and the run of the engine from acceptance to DONE (R105).
-/
namespace Sys2Proof.Proofs

open Sys2Proof.Machine Sys2Proof.Safety

/-! ## The last scanned position by the size of `x` -/

/-- `k(x)` of an `x` of `n + 1` bits: shifted by `15 - n` it still fits 16 bits, and one position further it does not. -/
theorem lastScanned_of_size {x n : Nat} (hn : n ≤ 15) (hlow : 2 ^ n ≤ x) (hhigh : x < 2 ^ (n + 1)) :
    lastScanned x = 15 - n := by
  have hfits : x * 2 ^ (15 - n) < 2 ^ 16 := by
    calc x * 2 ^ (15 - n) < 2 ^ (n + 1) * 2 ^ (15 - n) := Nat.mul_lt_mul_of_pos_right hhigh (Nat.two_pow_pos _)
      _ = 2 ^ 16 := by rw [← Nat.pow_add]; congr 1; omega
  have hover : 2 ^ 16 ≤ x * 2 ^ (15 - n + 1) := by
    calc 2 ^ 16 = 2 ^ n * 2 ^ (15 - n + 1) := by rw [← Nat.pow_add]; congr 1; omega
      _ ≤ x * 2 ^ (15 - n + 1) := Nat.mul_le_mul_right _ hlow
  have hx : x ≤ 65535 := by
    have : 2 ^ (n + 1) ≤ 2 ^ 16 := Nat.pow_le_pow_right (by decide) (by omega)
    omega
  have hhere := le_lastScanned_iff hx (15 - n)
  have hnext := le_lastScanned_iff hx (15 - n + 1)
  omega

theorem lastScanned_le (x : Nat) : lastScanned x ≤ 15 := scanDown_le x 15

theorem lastScanned_zero : lastScanned 0 = 15 := by decide

theorem lastScanned_of_le_one {x : Nat} (hx : x ≤ 1) : lastScanned x = 15 := by
  rcases Nat.le_one_iff_eq_zero_or_eq_one.1 hx with rfl | rfl
  · exact lastScanned_zero
  · exact lastScanned_of_size (n := 0) (by decide) le_rfl (by decide)

theorem log2_le_15 {x : Nat} (hx : x ≤ 65535) : Nat.log2 x ≤ 15 := by
  by_cases hzero : x = 0
  · subst x; decide
  · exact Nat.le_of_lt_succ ((Nat.log2_lt hzero).2 (by omega))

/-- `k(x) = 16 - bitlen(x)` (41_multiply.md R102), where `Nat.log2 0 = 0` gives `k(0) = 15` too. -/
theorem lastScanned_eq_log2 {x : Nat} (hx : x ≤ 65535) : lastScanned x = 15 - Nat.log2 x := by
  by_cases hzero : x = 0
  · subst x; decide
  · exact lastScanned_of_size (log2_le_15 hx) (Nat.log2_self_le hzero) Nat.lt_log2_self

/-- Settles O17: the maximum by `le_lastScanned_iff`, the table by the size of `x`, the value by `mul16_eq`. -/
theorem mulValueHasItsClosedForm : Obligations.MulValueHasItsClosedForm := by
  refine ⟨fun x hx => ?_, fun x y hx _ => mul16_eq hx y⟩
  obtain ⟨hbound, hfits⟩ := (le_lastScanned_iff hx _).1 le_rfl
  refine ⟨hbound, hfits, fun i hi hfit => (le_lastScanned_iff hx i).2 ⟨hi, hfit⟩, ?_, lastScanned_of_le_one,
    fun n _ hn => lastScanned_of_size hn⟩
  split
  · subst x; exact lastScanned_zero
  · rw [lastScanned_eq_log2 hx]; omega

/-! ## The largest value -/

/-- A product of two factors that have 17 bits together is largest when they have 8 and 9. -/
theorem max_product_le {n : Nat} (hn : n ≤ 15) : (2 ^ (n + 1) - 1) * (2 ^ (16 - n) - 1) ≤ 130305 := by
  have hall : ∀ n < 16, (2 ^ (n + 1) - 1) * (2 ^ (16 - n) - 1) ≤ 130305 := by decide
  exact hall n (by omega)

/-- The bits of `x` and the scanned bits of `y` are 17 together (41_multiply.md R104). -/
theorem mul16_le {x : Nat} (hx : x ≤ 65535) (y : Nat) : mul16 x y ≤ 130305 := by
  have hn := log2_le_15 hx
  have hscanned : lastScanned x + 1 = 16 - Nat.log2 x := by rw [lastScanned_eq_log2 hx]; omega
  calc mul16 x y = x * (y % 2 ^ (16 - Nat.log2 x)) := by rw [mul16_eq hx, hscanned]
    _ ≤ (2 ^ (Nat.log2 x + 1) - 1) * (2 ^ (16 - Nat.log2 x) - 1) :=
      Nat.mul_le_mul (Nat.le_pred_of_lt Nat.lt_log2_self) (Nat.le_pred_of_lt (Nat.mod_lt _ (Nat.two_pow_pos _)))
    _ ≤ 130305 := max_product_le hn

/-- Settles O18: the bound by `mul16_le`, the operands that reach it by evaluation. -/
theorem mulValueIsAtMost130305 : Obligations.MulValueIsAtMost130305 :=
  ⟨fun _ y hx _ => mul16_le hx y, by decide, by decide⟩

/-! ## When the value is the product -/

/-- The value is the product exactly when no bit of `y` is discarded, or nothing is added for it (41_multiply.md R106). -/
theorem mul16_eq_mul_iff {x : Nat} (hx : x ≤ 65535) (y : Nat) :
    mul16 x y = x * y ↔ x = 0 ∨ y < 2 ^ (lastScanned x + 1) := by
  rw [mul16_eq hx, mul_eq_mul_left_iff, Nat.mod_eq_iff_lt (Nat.two_pow_pos _).ne', or_comm]

/-- A bit of `y` above position `k(x)` would by itself make the product too large for 16 bits. -/
theorem mul16_of_product_le {x y : Nat} (hx : x ≤ 65535) (hy : y ≤ 65535) (hprod : x * y ≤ 65535) :
    mul16 x y = x * y := by
  refine (mul16_eq_mul_iff hx y).2 (.inr (Nat.lt_of_not_le fun hhigh => ?_))
  have hfits : x * 2 ^ (lastScanned x + 1) ≤ 65535 := (Nat.mul_le_mul_left x hhigh).trans hprod
  have hnext := le_lastScanned_iff hx (lastScanned x + 1)
  have hlast : lastScanned x = 15 := by have := lastScanned_le x; omega
  rw [hlast] at hhigh
  omega

/-- Settles O19: the condition by `mul16_eq_mul_iff`; operands up to 255 have a product of at most 65025. -/
theorem mulIsExactWhenNoBitIsDiscarded : Obligations.MulIsExactWhenNoBitIsDiscarded := by
  refine ⟨fun x y hx _ => mul16_eq_mul_iff hx y, fun x y hx hy => mul16_of_product_le hx hy, fun x y hx hy => ?_,
    by decide, by decide, by decide⟩
  have hprod : x * y ≤ 255 * 255 := Nat.mul_le_mul hx hy
  exact mul16_of_product_le (by omega) (by omega) (by omega)

/-- Settles O20: a product with 0 or 1 fits 16 bits and is exact; the value is a function of the scanned bits of `y`. -/
theorem mulCornerCases : Obligations.MulCornerCases := by
  refine ⟨fun x hx => ⟨?_, ?_, ?_, ?_⟩, by decide, by decide, by decide, by decide, by decide,
    fun x y z hx _ _ hmod => ?_⟩
  · exact mul16_of_product_le hx (by decide) (by omega)
  · simpa using mul16_of_product_le (x := 0) (by decide) hx (by omega)
  · simpa using mul16_of_product_le (x := 1) (by decide) hx (by omega)
  · simpa using mul16_of_product_le hx (y := 1) (by decide) (by omega)
  · rw [mul16_eq hx, mul16_eq hx, hmod]

/-! ## The run of the engine -/

/-- Settles O21: `mulBusy_stepMul` before the last position, `mulDone_stepMul` at it. -/
theorem mulStepKeepsItsRegisters : Obligations.MulStepKeepsItsRegisters :=
  fun _ _ _ h => ⟨mulBusy_stepMul h, mulDone_stepMul h⟩

/-- A step before the last position goes up one position. -/
theorem stepMul_position {x y : Word} {e : MulEngine} (h : MulBusy x y e) (hi : e.i.toNat < lastScanned x.toNat) :
    (stepMul e).i.toNat = e.i.toNat + 1 := by
  have hlast : ¬ e.lastPosition = true := fun hl => hi.ne ((lastPosition_iff h).1 hl)
  have hbound := lastScanned_le x.toNat
  rw [stepMul, if_neg hlast]
  exact Nat.mod_eq_of_lt (show e.i.toNat + 1 < 2 ^ 4 by omega)

/-- An accepted MUL after `n` steps, up to the last position: BUSY with its operands at position `n`. -/
theorem mulBusy_iterate (x y : Word) {n : Nat} (hn : n ≤ lastScanned x.toNat) :
    MulBusy x y (stepMul^[n] (initMul x y)) ∧ (stepMul^[n] (initMul x y)).i.toNat = n := by
  induction n with
  | zero => exact ⟨mulBusy_initMul x y, rfl⟩
  | succ n ih =>
    obtain ⟨hbusy, hi⟩ := ih (Nat.le_of_succ_le hn)
    have hlt := hi.trans_lt hn
    rw [Function.iterate_succ_apply']
    exact ⟨mulBusy_stepMul hbusy hlt, (stepMul_position hbusy hlt).trans (congrArg (· + 1) hi)⟩

/-- The step after position `k(x)` is reached completes the operation (41_multiply.md R105). -/
theorem mulDone_iterate (x y : Word) : MulDone x y (stepMul^[lastScanned x.toNat + 1] (initMul x y)) := by
  obtain ⟨hbusy, hi⟩ := mulBusy_iterate x y le_rfl
  rw [Function.iterate_succ_apply']
  exact mulDone_stepMul hbusy hi

/-- Settles O22: BUSY for `k(x)` steps by `mulBusy_iterate`, DONE one later, and `k(x)` by the size of `x`. -/
theorem mulCompletesInExactlyItsSteps : Obligations.MulCompletesInExactlyItsSteps := by
  intro x y
  obtain ⟨hdone, hvalue⟩ := mulDone_iterate x y
  refine ⟨fun n hn => (mulBusy_iterate x y hn).1.busy, hdone, hvalue, fun hx => ?_, fun hx => ?_⟩
  · rw [lastScanned_of_le_one hx]
  · rw [lastScanned_of_size (n := 15) le_rfl hx x.isLt]

end Sys2Proof.Proofs
end

section
/-!
PROOFS. DIV (42_divide.md): the value and the count of doublings (R121, R122), what one step of the engine does in each
phase (R123, R124), its run from acceptance to DONE (R125), and division by zero (R126).
-/
namespace Sys2Proof.Proofs

open Sys2Proof.Machine Sys2Proof.Safety Sys2Proof.Laws

/-! ## The value and the count of doublings -/

/-- Settles O23: the quotient by `div16_eq`, and a quotient is 0 exactly when the divisor is the larger. -/
theorem divValueIsTheFloorQuotient : Obligations.DivValueIsTheFloorQuotient := by
  intro x y hx hy _
  have hzero : x / y = 0 ↔ x < y := Nat.div_eq_zero_iff_lt hy
  exact ⟨div16_eq hx hy, Nat.div_le_self x y, by rw [div16_eq hx hy, Option.some_inj, hzero]⟩

theorem doubleUp_le_of_lt {x n d k : Nat} (h : x < d * 2 ^ k) : doubleUp x n d ≤ k := by
  induction n generalizing d k with
  | zero => exact Nat.zero_le k
  | succ n ih =>
    simp only [doubleUp]
    split
    · exact Nat.zero_le k
    · cases k with
      | zero => omega
      | succ k => exact Nat.succ_le_succ (ih (by rw [Nat.pow_succ] at h; linarith))

/-- `K(x, y)` is the least count of doublings that takes `y` above `x` (42_divide.md R121). -/
theorem doublings_le_iff {x y : Nat} (hx : x ≤ 65535) (hy : 0 < y) (k : Nat) :
    doublings x y ≤ k ↔ x < y * 2 ^ k := by
  refine ⟨fun hk => ?_, doubleUp_le_of_lt⟩
  calc x < y * 2 ^ doublings x y := lt_mul_two_pow_doublings hx hy
    _ ≤ y * 2 ^ k := Nat.mul_le_mul_left y (Nat.pow_le_pow_right (by decide) hk)

/-- A divisor is still not above `x` exactly when it has been doubled fewer than `K(x, y)` times. -/
theorem lt_doublings_iff {x y : Nat} (hx : x ≤ 65535) (hy : 0 < y) (k : Nat) :
    k < doublings x y ↔ y * 2 ^ k ≤ x := by
  rw [← Nat.not_le, doublings_le_iff hx hy, Nat.not_lt]

theorem doublings_le_16 {x y : Nat} (hx : x ≤ 65535) (hy : 0 < y) : doublings x y ≤ 16 :=
  (doublings_le_iff hx hy 16).2 (by omega)

theorem doublings_eq_zero_iff {x y : Nat} (hx : x ≤ 65535) (hy : 0 < y) : doublings x y = 0 ↔ x < y := by
  simpa using doublings_le_iff hx hy 0

/-- `K(x, y)` is the number of bits of the quotient, when that is not 0 (42_divide.md R121). -/
theorem doublings_eq_log2 {x y : Nat} (hx : x ≤ 65535) (hy : 0 < y) (hyx : y ≤ x) :
    doublings x y = Nat.log2 (x / y) + 1 := by
  have hquot : x / y ≠ 0 := (Nat.div_pos hyx hy).ne'
  refine eq_of_forall_ge_iff fun k => ?_
  rw [doublings_le_iff hx hy, Nat.succ_le_iff, Nat.log2_lt hquot, Nat.div_lt_iff_lt_mul hy, Nat.mul_comm]

/-- Settles O24: the minimum by `doublings_le_iff`, from which the closed form and the bound follow. -/
theorem doublingCountIsTheLeast : Obligations.DoublingCountIsTheLeast := by
  intro x y hx hy _
  refine ⟨(doublings_le_iff hx hy _).1 le_rfl, fun n => (doublings_le_iff hx hy n).2, ?_, doublings_le_16 hx hy⟩
  split
  · exact (doublings_eq_zero_iff hx hy).2 ‹_›
  · exact doublings_eq_log2 hx hy (by omega)

/-! ## One step of a BUSY engine -/

theorem stepDiv_of_descend {e : DivEngine} (hph : e.ph = .descend) : stepDiv e = stepDivDescend e := by
  rw [stepDiv, hph]

theorem stepDiv_of_ascend {e : DivEngine} (hph : e.ph = .ascend) : stepDiv e = stepDivAscend e := by
  rw [stepDiv, hph]

/-- What an ASCEND step writes, whether it completes or not. -/
theorem stepDivAscend_registers (e : DivEngine) :
    (stepDivAscend e).d = e.dNext ∧ (stepDivAscend e).q = e.qNext ∧ (stepDivAscend e).m = e.mNext ∧
    (stepDivAscend e).k = e.k - 1 := by
  unfold stepDivAscend
  split <;> exact ⟨rfl, rfl, rfl, rfl⟩

section
variable {x y : Word} {e : DivEngine}

theorem not_divDone_of_divBusy (h : DivBusy x y e) : ¬ DivDone x y e := fun hdone =>
  absurd (h.busy.symm.trans hdone.1) (by decide)

theorem divBusy_k_le_16 (h : DivBusy x y e) : e.k.toNat ≤ 16 :=
  h.kBound.trans (doublings_le_16 (word_le x) (word_pos h.yNonzero))

/-- The engine's own test for doubling once more finds `K(x, y)`. -/
theorem d_le_x_iff (h : DivBusy x y e) : e.d.toNat ≤ e.x.toNat ↔ e.k.toNat < doublings x.toNat y.toNat := by
  rw [h.xLatched, h.dDoubled, lt_doublings_iff (word_le x) (word_pos h.yNonzero)]

/-- `DIV.d` is the divisor, or twice a value not above the dividend: 17 bits hold it (42_divide.md R124). -/
theorem divBusy_d_le (h : DivBusy x y e) : e.d.toNat ≤ 131070 := by
  have hx := word_le x
  have hy := word_le y
  have hd := h.dDoubled
  cases hk : e.k.toNat with
  | zero => rw [hk] at hd; omega
  | succ k =>
    have hlt : k + 1 ≤ doublings x.toNat y.toNat := hk ▸ h.kBound
    have hhalf : y.toNat * 2 ^ k ≤ x.toNat := (lt_doublings_iff hx (word_pos h.yNonzero) k).1 hlt
    rw [hk, Nat.pow_succ, ← Nat.mul_assoc] at hd
    omega

end

/-- The engine runs `DIV x, y`, in this phase and with this `DIV.K`. -/
def DivAt (x y : Word) (ph : DivPhase) (k : Nat) (e : DivEngine) : Prop :=
  DivBusy x y e ∧ e.ph = ph ∧ e.k.toNat = k

section
variable {x y : Word} {e : DivEngine} {k : Nat}

/-- Before `K(x, y)` doublings a DESCEND step doubles once more. -/
theorem divAt_stepDiv_doubles (h : DivAt x y .descend k e) (hk : k < doublings x.toNat y.toNat) :
    DivAt x y .descend (k + 1) (stepDiv e) := by
  obtain ⟨hbusy, hph, rfl⟩ := h
  have hd := (d_le_x_iff hbusy).2 hk
  have hk16 := divBusy_k_le_16 hbusy
  rw [stepDiv_of_descend hph, stepDivDescend, if_pos hd]
  exact ⟨divBusy_doubled hbusy hph hd, hph, Nat.mod_eq_of_lt (show e.k.toNat + 1 < 2 ^ 5 by omega)⟩

/-- After `K(x, y)` doublings, if there are any, a DESCEND step turns to ASCEND. -/
theorem divAt_stepDiv_turns (h : DivAt x y .descend (doublings x.toNat y.toNat) e)
    (hK : doublings x.toNat y.toNat ≠ 0) : DivAt x y .ascend (doublings x.toNat y.toNat) (stepDiv e) := by
  obtain ⟨hbusy, hph, hk⟩ := h
  have hd : ¬ e.d.toNat ≤ e.x.toNat := fun hd => ((d_le_x_iff hbusy).1 hd).ne hk
  have hzero : e.k ≠ 0#5 := fun h0 => hK (by rw [← hk, h0]; rfl)
  rw [stepDiv_of_descend hph, stepDivDescend, if_neg hd, if_neg hzero]
  exact ⟨divBusy_turned hbusy hph (Nat.lt_of_not_le hd) hzero, rfl, hk⟩

/-- With no doubling to do the first step completes. -/
theorem divDone_stepDiv_at_once (h : DivAt x y .descend 0 e) (hK : doublings x.toNat y.toNat = 0) :
    DivDone x y (stepDiv e) := by
  obtain ⟨hbusy, hph, hk⟩ := h
  have hd : ¬ e.d.toNat ≤ e.x.toNat := fun hd => ((d_le_x_iff hbusy).1 hd).ne (hk.trans hK.symm)
  have hzero : e.k = 0#5 := BitVec.eq_of_toNat_eq hk
  rw [stepDiv_of_descend hph, stepDivDescend, if_neg hd, if_pos hzero]
  exact divDone_at_once hbusy (Nat.lt_of_not_le hd) hzero

/-- An ASCEND step above level 1 goes up one level. -/
theorem divAt_stepDiv_ascends (h : DivAt x y .ascend (k + 2) e) : DivAt x y .ascend (k + 1) (stepDiv e) := by
  obtain ⟨hbusy, hph, hk⟩ := h
  have hpred : (e.k - 1).toNat = k + 1 := by rw [pred_k_toNat hbusy hph, hk]; rfl
  have hlast : e.k - 1 ≠ 0#5 := fun h0 => Nat.succ_ne_zero k (hpred.symm.trans (congrArg BitVec.toNat h0))
  rw [stepDiv_of_ascend hph, stepDivAscend, if_neg hlast]
  exact ⟨divBusy_ascended hbusy hph hlast, hph, hpred⟩

/-- An ASCEND step at level 1 completes. -/
theorem divDone_stepDiv_ascended (h : DivAt x y .ascend 1 e) : DivDone x y (stepDiv e) := by
  obtain ⟨hbusy, hph, hk⟩ := h
  have hlast : e.k - 1 = 0#5 := BitVec.eq_of_toNat_eq (by rw [pred_k_toNat hbusy hph, hk]; rfl)
  rw [stepDiv_of_ascend hph, stepDivAscend, if_pos hlast]
  exact divDone_ascended hbusy hph hlast

/-- A DESCEND step completes only before any doubling, when there is none to do. -/
theorem divDone_stepDiv_of_descend (h : DivBusy x y e) (hph : e.ph = .descend) :
    DivDone x y (stepDiv e) ↔ e.k = 0#5 ∧ x.toNat < y.toNat := by
  have hat : DivAt x y .descend e.k.toNat e := ⟨h, hph, rfl⟩
  rw [← doublings_eq_zero_iff (word_le x) (word_pos h.yNonzero), BitVec.toNat_eq]
  rcases h.kBound.lt_or_eq with hlt | hlast
  · exact iff_of_false (not_divDone_of_divBusy (divAt_stepDiv_doubles hat hlt).1) fun ⟨_, hK⟩ => by omega
  · by_cases hK : doublings x.toNat y.toNat = 0
    · exact iff_of_true (divDone_stepDiv_at_once (hK ▸ hlast ▸ hat) hK) ⟨hlast.trans hK, hK⟩
    · exact iff_of_false (not_divDone_of_divBusy (divAt_stepDiv_turns (hlast ▸ hat) hK).1) fun ⟨_, h0⟩ => hK h0

/-- An ASCEND step completes only at level 1. -/
theorem divDone_stepDiv_of_ascend (h : DivBusy x y e) (hph : e.ph = .ascend) :
    DivDone x y (stepDiv e) ↔ e.k = 1#5 := by
  obtain ⟨hpos, -⟩ := h.ascending hph
  rw [BitVec.toNat_eq]
  match hk : e.k.toNat with
  | 0 => omega
  | 1 => exact iff_of_true (divDone_stepDiv_ascended ⟨h, hph, hk⟩) rfl
  | k + 2 => exact iff_of_false (not_divDone_of_divBusy (divAt_stepDiv_ascends ⟨h, hph, hk⟩).1) nofun

end

/-- Settles O25: the invariants by `divRuns_stepDiv`, and when a step completes by the phase it is taken in. -/
theorem divStepKeepsItsRegisters : Obligations.DivStepKeepsItsRegisters := by
  intro x y e h
  refine ⟨divRuns_stepDiv h, ?_⟩
  cases hph : e.ph with
  | descend => simpa using divDone_stepDiv_of_descend h hph
  | ascend => simpa using divDone_stepDiv_of_ascend h hph

/-! ## Every sum of a step is exact -/

section
variable {x y : Word} {e : DivEngine} (h : DivBusy x y e)
include h

/-- A doubling loses no bit of `DIV.d` or of `DIV.K`. -/
theorem stepDivDescend_exact (hph : e.ph = .descend) (hd : e.d.toNat ≤ e.x.toNat) :
    (stepDivDescend e).d.toNat = 2 * e.d.toNat ∧ (stepDivDescend e).k.toNat = e.k.toNat + 1 := by
  obtain ⟨hbusy, -, hk⟩ := divAt_stepDiv_doubles ⟨h, hph, rfl⟩ ((d_le_x_iff h).1 hd)
  rw [stepDiv_of_descend hph] at hbusy hk
  refine ⟨?_, hk⟩
  rw [hbusy.dDoubled, hk, h.dDoubled, Nat.pow_succ']
  exact Nat.mul_left_comm _ _ _

/-- `DIV.M + b * d'` is that sum of naturals. -/
theorem mNext_exact (hph : e.ph = .ascend) :
    e.mNext.toNat = e.m.toNat + e.quotientBit.toNat * e.dNext.toNat := by
  obtain ⟨-, -, hm, -⟩ := h.ascending hph
  rw [(mNext_toNat h hph).1, qNext_toNat h hph, div_dNext h hph, hm, d_toNat_eq h hph]
  ring

end

/-- Settles O26: the bounds by `divBusy_d_le` and `divBusy_k_le_16`, before a step and after a doubling; the sums of an
ASCEND step by `qNext_toNat` and `mNext_exact`, on a remainder that is not negative because `DIV.M <= x`. -/
theorem divRegistersStayInBounds : Obligations.DivRegistersStayInBounds := by
  intro x y e h
  refine ⟨divBusy_d_le h, divBusy_k_le_16 h, fun hph hd => ?_, fun hph => ?_⟩
  · obtain ⟨hbusy, -⟩ := divAt_stepDiv_doubles ⟨h, hph, rfl⟩ ((d_le_x_iff h).1 hd)
    obtain ⟨hd2, hk1⟩ := stepDivDescend_exact h hph hd
    have hstep := stepDiv_of_descend hph
    rw [hstep] at hbusy
    exact ⟨hstep, hd2, hd2 ▸ divBusy_d_le hbusy, hk1, hk1 ▸ divBusy_k_le_16 hbusy⟩
  · obtain ⟨hk, -, -, hm⟩ := h.ascending hph
    obtain ⟨hd', hq', hm', hk'⟩ := stepDivAscend_registers e
    have hr : (e.x - e.m).toNat = e.x.toNat - e.m.toNat := BitVec.toNat_sub_of_le (h.xLatched ▸ hm)
    rw [stepDiv_of_ascend hph]
    refine ⟨h.xLatched ▸ hm, hr, (d_toNat_eq h hph).symm, ?_, (qNext_toNat h hph).trans (div_dNext h hph),
      mNext_exact h hph, hd', hq', hm', ?_⟩
    · rw [DivEngine.quotientBit, hr, decide_eq_true_eq]
    · rw [hk', pred_k_toNat h hph, Nat.sub_add_cancel hk]

/-! ## The run of the engine -/

section
variable (x : Word) {y : Word} (hy : y ≠ 0#16)
include hy

/-- An accepted DIV after `n` steps, up to `K(x, y)`: in DESCEND, doubled `n` times. -/
theorem divAt_iterate_descend {n : Nat} (hn : n ≤ doublings x.toNat y.toNat) :
    DivAt x y .descend n (stepDiv^[n] (initDiv x y)) := by
  induction n with
  | zero => exact ⟨divBusy_initDiv x hy, rfl, rfl⟩
  | succ n ih =>
    rw [Function.iterate_succ_apply']
    exact divAt_stepDiv_doubles (ih (Nat.le_of_succ_le hn)) hn

/-- An accepted DIV after the step that turns and `n` more: in ASCEND, with `l + 1` levels to go. -/
theorem divAt_iterate_ascend {n l : Nat} (hn : n + (l + 1) = doublings x.toNat y.toNat) :
    DivAt x y .ascend (l + 1) (stepDiv^[doublings x.toNat y.toNat + n + 1] (initDiv x y)) := by
  rw [Function.iterate_succ_apply']
  induction n generalizing l with
  | zero =>
    have hlast := divAt_stepDiv_turns (divAt_iterate_descend x hy le_rfl) (by omega)
    rwa [← hn, Nat.zero_add] at hlast ⊢
  | succ n ih =>
    rw [← Nat.add_assoc, Function.iterate_succ_apply']
    exact divAt_stepDiv_ascends (ih (l := l + 1) (by omega))

/-- The step after `2 * K(x, y)` steps completes the operation (42_divide.md R125). -/
theorem divDone_iterate : DivDone x y (stepDiv^[2 * doublings x.toNat y.toNat + 1] (initDiv x y)) := by
  rw [Function.iterate_succ_apply']
  by_cases hK : doublings x.toNat y.toNat = 0
  · rw [hK]
    exact divDone_stepDiv_at_once (divAt_iterate_descend x hy (Nat.zero_le _)) hK
  · have hlast : doublings x.toNat y.toNat - 1 + (0 + 1) = doublings x.toNat y.toNat := Nat.sub_add_cancel (by omega)
    have hsteps : 2 * doublings x.toNat y.toNat = doublings x.toNat y.toNat + (doublings x.toNat y.toNat - 1) + 1 := by
      omega
    rw [hsteps]
    exact divDone_stepDiv_ascended (divAt_iterate_ascend x hy hlast)

/-- After the doublings and until DONE the engine is in ASCEND. -/
theorem divBusy_iterate_ascend {n : Nat} (hlow : doublings x.toNat y.toNat < n)
    (hhigh : n ≤ 2 * doublings x.toNat y.toNat) :
    DivBusy x y (stepDiv^[n] (initDiv x y)) ∧ (stepDiv^[n] (initDiv x y)).ph = .ascend := by
  obtain ⟨m, rfl⟩ := Nat.exists_eq_add_of_lt hlow
  obtain ⟨hbusy, hph, -⟩ := divAt_iterate_ascend x hy (n := m) (l := doublings x.toNat y.toNat - m - 1) (by omega)
  exact ⟨hbusy, hph⟩

end

/-- Settles O27: `K(x, y)` doublings by `divAt_iterate_descend`, then ASCEND by `divBusy_iterate_ascend`, and DONE by
`divDone_iterate`; the bound is that of `K(x, y)`. -/
theorem divCompletesInExactlyItsSteps : Obligations.DivCompletesInExactlyItsSteps := by
  refine ⟨fun x y hy => ?_, by decide⟩
  have hx := word_le x
  have hpos := word_pos hy
  have hK := doublings_le_16 hx hpos
  obtain ⟨hdone, -, hvalue⟩ := divDone_iterate x hy
  refine ⟨fun n hn => ?_, hdone, hvalue, fun n hn => ?_, fun n hlow hhigh => (divBusy_iterate_ascend x hy hlow hhigh).2,
    fun hlt => ?_, by omega⟩
  · rcases Nat.lt_or_ge (doublings x.toNat y.toNat) n with hasc | hdesc
    · exact (divBusy_iterate_ascend x hy hasc hn).1.busy
    · exact (divAt_iterate_descend x hy hdesc).1.busy
  · obtain ⟨hbusy, hph, hk⟩ := divAt_iterate_descend x hy hn
    exact ⟨hph, by rw [hbusy.dDoubled, hk]⟩
  · rw [(doublings_eq_zero_iff hx hpos).2 hlt]

/-! ## Division by zero -/

/-- Settles O11: an engine that is ready raises cause 1, and what R160 makes of DIV is in FAULT without a result. -/
theorem divByZeroFaults : Obligations.DivByZeroFaults := fun a s h =>
  ⟨freeDiv .fault none s.draws, rfl, rfl,
    congrArg Host.Outcome.next (ifReady_of_ready ((ready_iff .div _).2 h) (.div a 0#16) (startDiv a 0#16))⟩

end Sys2Proof.Proofs
end

section
/-!
PROOFS. SQRT (43_sqrt.md): the value (R142), what one step of the engine does and that its square is exact (R143, R144),
and its run from acceptance to DONE (R145).
-/
namespace Sys2Proof.Proofs

open Sys2Proof.Machine Sys2Proof.Safety

/-! ## The value -/

/-- Settles O28: `isqrt16` is the library's floor root, by `isqrt16_eq`, and has the library's bounds. -/
theorem sqrtValueIsTheFloorRoot : Obligations.SqrtValueIsTheFloorRoot := by
  intro x hx
  rw [isqrt16_eq hx]
  exact ⟨Nat.sqrt_le' x, Nat.lt_succ_sqrt' x, rfl, sqrt_le_255 hx⟩

/-! ## One step of a BUSY engine -/

/-- A step before position 0 goes down one position (43_sqrt.md R143). -/
theorem stepSqrt_j {e : SqrtEngine} (hj : e.j ≠ 0#3) : (stepSqrt e).j = e.j - 1 := by
  rw [stepSqrt, if_neg hj]

/-- Settles O29: `sqrtBusy_stepSqrt` before position 0, `sqrtDone_stepSqrt` at it. -/
theorem sqrtStepKeepsItsRegisters : Obligations.SqrtStepKeepsItsRegisters :=
  fun _ _ h => ⟨fun hj => ⟨sqrtBusy_stepSqrt h hj, stepSqrt_j hj⟩, sqrtDone_stepSqrt h⟩

/-- Settles O30: `candidate_toNat` and `candidateSq_toNat`; the candidate has 8 bits, so its square is at most
`255 * 255`. -/
theorem sqrtCandidateSquareIsExact : Obligations.SqrtCandidateSquareIsExact := by
  intro x e h
  have hsq : e.candidateSq.toNat = e.candidate.toNat * e.candidate.toNat := (candidateSq_toNat h).trans (Nat.pow_two _)
  have hc : e.candidate.toNat ≤ 255 := Nat.le_of_lt_succ e.candidate.isLt
  exact ⟨candidate_toNat h, hsq, hsq ▸ Nat.mul_le_mul hc hc⟩

/-! ## The run of the engine -/

/-- A step before position 0, with the positions as naturals. -/
theorem stepSqrt_j_toNat {e : SqrtEngine} (hj : e.j ≠ 0#3) : (stepSqrt e).j.toNat + 1 = e.j.toNat := by
  have hpos : 1 ≤ e.j.toNat := Nat.pos_of_ne_zero fun h0 => hj (BitVec.eq_of_toNat_eq h0)
  rw [stepSqrt_j hj, BitVec.toNat_sub_of_le hpos]
  exact Nat.sub_add_cancel hpos

/-- An accepted SQRT after `n` steps, up to 7: BUSY with its operand at position `7 - n`. -/
theorem sqrtBusy_iterate (x : Word) {n : Nat} (hn : n ≤ 7) :
    SqrtBusy x (stepSqrt^[n] (initSqrt x)) ∧ (stepSqrt^[n] (initSqrt x)).j.toNat + n = 7 := by
  induction n with
  | zero => exact ⟨sqrtBusy_initSqrt x, rfl⟩
  | succ n ih =>
    obtain ⟨hbusy, hposition⟩ := ih (Nat.le_of_succ_le hn)
    have hj : (stepSqrt^[n] (initSqrt x)).j ≠ 0#3 := fun h0 => by
      rw [h0] at hposition
      exact absurd hposition (show ¬ 0 + n = 7 by omega)
    have hpred := stepSqrt_j_toNat hj
    rw [Function.iterate_succ_apply']
    exact ⟨sqrtBusy_stepSqrt hbusy hj, by omega⟩

/-- The step at position 0, the eighth, completes the operation. -/
theorem sqrtDone_iterate (x : Word) : SqrtDone x (stepSqrt^[8] (initSqrt x)) := by
  obtain ⟨hbusy, hposition⟩ := sqrtBusy_iterate x le_rfl
  rw [Function.iterate_succ_apply']
  exact sqrtDone_stepSqrt hbusy (BitVec.eq_of_toNat_eq (Nat.add_right_cancel hposition))

/-- Settles O31: BUSY for 7 steps by `sqrtBusy_iterate`, DONE with the root at the eighth by `sqrtDone_iterate`. -/
theorem sqrtCompletesInExactlyEightSteps : Obligations.SqrtCompletesInExactlyEightSteps :=
  fun x => ⟨fun _ hn => (sqrtBusy_iterate x hn).1.busy, sqrtDone_iterate x⟩

end Sys2Proof.Proofs
end

section
/-!
PROOFS. Exceptions (60_exceptions.md): every command is answered (R163, R166), what a command and a step record (R161,
R162), how long what a fault leaves behind stays (R164), and the host variable of a failed result read (R167).
-/
namespace Sys2Proof.Proofs

open Sys2Proof.Machine Sys2Proof.Safety Sys2Proof.Laws

/-! ## What a step records -/

/-- A command records one fault at most, and never cause 4, which is a read's (60_exceptions.md R160, R162). -/
theorem exec_faults {i : Instr} {s t : State} (h : exec i s = .next t) :
    t.faults = s.faults ∨ ∃ f, t.faults = s.faults ++ [f] ∧ ∀ e, f ≠ .resultNotReady e := by
  rcases exec_cases h with ⟨_, _, -, -, rfl⟩ | ⟨_, _, -, -, -, rfl⟩ | ⟨_, _, -, -, rfl⟩ | ⟨_, -, -, rfl⟩ |
    ⟨_, _, -, rfl⟩ | ⟨_, -, -, rfl⟩
  · exact .inl rfl
  · exact .inl rfl
  · exact .inl rfl
  · exact .inr ⟨_, rfl, nofun⟩
  · exact .inr ⟨_, rfl, nofun⟩
  · exact .inr ⟨_, rfl, nofun⟩

/-- A result read records nothing, or cause 4 for the engine read (60_exceptions.md R160). -/
theorem readInto_faults (e : Engine) (v : Nat) (s : State) :
    (readInto e v s).faults = s.faults ∨ (readInto e v s).faults = s.faults ++ [.resultNotReady e] := by
  cases hread : readResult e s.core with
  | some n => exact .inl (by rw [readInto_of_value hread])
  | none => exact .inr (by rw [readInto_of_no_value hread, raise_faults])

@[simp] theorem pollOnce_faults (e : Engine) (v : Nat) (s : State) : (pollOnce e v s).faults = s.faults := by
  unfold pollOnce
  split <;> rfl

/-- A host statement records one fault at most, and cause 4 only as the `RD` of that engine. -/
theorem runStmt_faults {st : HostStmt} {s t : State} (h : runStmt st s = .next t) :
    t.faults = s.faults ∨ ∃ f, t.faults = s.faults ++ [f] ∧ ∀ e, f = .resultNotReady e → ∃ r, st = .rd e r := by
  rcases runStmt_cases h with ⟨i, -, hexec⟩ | ⟨v, -, rfl⟩ | ⟨e, v, rfl, rfl⟩ | ⟨e, v, -, rfl⟩ | ⟨-, rfl⟩
  · rw [← afterPresent_faults s i]
    exact (exec_faults hexec).imp_right fun ⟨f, hf, hnot⟩ => ⟨f, hf, fun e he => absurd he (hnot e)⟩
  · exact .inl rfl
  · refine (readInto_faults e v s).imp_right fun hread => ⟨_, hread, fun e' he => ⟨v, ?_⟩⟩
    rw [FaultEntry.resultNotReady.inj he]
  · exact .inl (pollOnce_faults e v s)
  · exact .inl rfl

/-- The record is extended by one fault at most, and by cause 4 only where the host runs the `RD` of that engine. -/
theorem step_faults {s t : State} (h : step s = .next t) :
    t.faults = s.faults ∨
      ∃ f, t.faults = s.faults ++ [f] ∧ ∀ e, f = .resultNotReady e → ∃ r, HostRuns (.rd e r) s := by
  rcases step_cases h with ⟨-, rfl⟩ | ⟨e, -, rfl⟩ | ⟨st, hruns, hrun⟩
  · exact .inl rfl
  · exact .inl (engineStep_faults e s.tick)
  · refine (runStmt_faults hrun).imp_right fun ⟨f, hf, hread⟩ => ⟨f, hf, fun e he => ?_⟩
    obtain ⟨r, rfl⟩ := hread e he
    exact ⟨r, hruns⟩

/-- An engine that is ready passes the check of cause 3. -/
theorem not_busy_or_fault_of_ready {e : Engine} {c : CoreState} (h : ready e c = true) :
    ¬(c.status e = .busy ∨ c.status e = .fault) := by
  simp [← not_ready_iff, h]

/-- Settles O14: each of the six things a command can do fixes which checks of R162 it passed; the rest is what a step
records. -/
theorem commandFaultsInPriorityOrder : Obligations.CommandFaultsInPriorityOrder := by
  refine ⟨engineStep_faults, fun s t e h hrecord => ?_, fun s t h => ?_, fun i s t h => ?_⟩
  · rcases step_faults h with hsame | ⟨f, hf, hread⟩
    · simp [hsame] at hrecord
    · rw [hf] at hrecord
      exact hread e (by simpa using hrecord)
  · rcases step_faults h with hsame | ⟨f, hf, -⟩
    · simp [hsame]
    · simp [hf]
  · rcases exec_cases h with ⟨a, b, rfl, hr, rfl⟩ | ⟨a, b, rfl, hr, hb, rfl⟩ | ⟨a, b, rfl, hr, rfl⟩ |
      ⟨a, rfl, hr, rfl⟩ | ⟨a, b, rfl, rfl⟩ | ⟨e, hi, hr, rfl⟩
    · simpa using not_busy_or_fault_of_ready hr
    · simpa [hb] using not_busy_or_fault_of_ready hr
    · simpa using not_busy_or_fault_of_ready hr
    · simpa using not_busy_or_fault_of_ready hr
    · rfl
    · have hcheck := (not_ready_iff e s.core).1 hr
      cases i <;> cases hi
      all_goals exact congrArg (s.faults ++ ·) (if_pos hcheck).symm

/-- Settles O54: the record is only ever extended, and a successful end has it empty. -/
theorem faultRecordOnlyGrows : Obligations.FaultRecordOnlyGrows := by
  intro s t h
  have hgrows : t.faults = s.faults ∨ ∃ f, t.faults = s.faults ++ [f] :=
    (step_faults h).imp_right fun ⟨f, hf, _⟩ => ⟨f, hf⟩
  refine ⟨hgrows, fun hrecorded ⟨_, _, hempty⟩ => ?_⟩
  rcases hgrows with hsame | ⟨f, hf⟩
  · exact hrecorded (hsame.symm.trans hempty)
  · simp [hempty] at hf

/-! ## The sticky bits -/

/-- No command clears `CMD_ERR` (60_exceptions.md R164). -/
theorem exec_cmdErr_sticky {i : Instr} {s t : State} (h : exec i s = .next t) (hset : s.core.cmdErr = true) :
    t.core.cmdErr = true := by
  rcases exec_start_or_raise h with ⟨-, rfl⟩ | ⟨-, f, rfl, -⟩
  · exact (startOperation_cmdErr i s).trans hset
  · exact (raise_cmdErr f s).elim (·.trans hset) id

/-- No host statement but RESET clears `CMD_ERR` (60_exceptions.md R164). -/
theorem runStmt_cmdErr_sticky {st : HostStmt} {s t : State} (h : runStmt st s = .next t) (hreset : st ≠ .reset)
    (hset : s.core.cmdErr = true) : t.core.cmdErr = true := by
  rcases runStmt_cases h with ⟨i, -, hexec⟩ | ⟨v, -, rfl⟩ | ⟨e, v, -, rfl⟩ | ⟨e, v, -, rfl⟩ | ⟨hst, -⟩
  · exact exec_cmdErr_sticky hexec (by simpa using hset)
  · exact hset
  · simpa using hset
  · simpa using hset
  · exact absurd hst hreset

theorem step_cmdErr_sticky {s t : State} (h : step s = .next t) (hreset : ¬ Resets s) (hset : s.core.cmdErr = true) :
    t.core.cmdErr = true := by
  rcases step_cases h with ⟨-, rfl⟩ | ⟨e, -, rfl⟩ | ⟨st, hruns, hrun⟩
  · exact hset
  · exact (engineStep_cmdErr e s.tick).trans hset
  · have hnot : st ≠ .reset := fun hst => by subst hst; exact hreset hruns
    exact runStmt_cmdErr_sticky (s := s.tick) hrun hnot hset

/-- A DIV engine in FAULT takes no step of its own and no command, so only RESET ends its FAULT (10_state.md R23). -/
theorem step_div_fault_sticky {s t : State} (h : step s = .next t) (hreset : ¬ Resets s)
    (hfault : s.core.div.st = .fault) : t.core.div.st = .fault := by
  have hlost : ready .div s.core = false := (not_ready_iff .div _).2 (.inr hfault)
  rcases step_own_or_sameEngine h hreset fun _ => hlost with ⟨hagent, -⟩ | ⟨-, hsame⟩
  · have hbusy := busy_of_moves hagent
    simp [hfault] at hbusy
  · exact (congrArg DivEngine.st hsame).trans hfault

/-- Settles O55: nothing but RESET clears either bit. -/
theorem faultBitsAreStickyUntilReset : Obligations.FaultBitsAreStickyUntilReset := fun _ _ h hreset =>
  ⟨step_cmdErr_sticky h hreset, step_div_fault_sticky h hreset⟩

/-! ## No trap, and the host's own faults -/

/-- Settles O13: each arm of `exec` answers with a next state, which may hold a recorded fault. -/
theorem everyCommandIsAnswered : Obligations.EveryCommandIsAnswered := exec_eq_next

/-- An unwritten variable has no value for the port (60_exceptions.md R167). -/
theorem evalOperand_of_unwritten {v : Nat} {vars : List (Nat × Nat)} (h : getVar v vars = none) :
    evalOperand (.var v) vars = .fault (.unsetVariable v) := by
  simp only [evalOperand, h]

/-- Settles O39: the variable evaluates to the fault, at either place of a command statement. -/
theorem unwrittenVariableFaults : Obligations.UnwrittenVariableFaults := by
  intro s v a b x hv ha hruns
  exact step_of_operand_stops (fun f => by rw [evalOperand_of_unwritten hv, andThen_fault]) ha hruns

/-- Settles O44: without a value the read erases its variable and no other, and raising cause 4 leaves the host alone. -/
theorem failedReadUnsetsTheVariable : Obligations.FailedReadUnsetsTheVariable := by
  intro s e r hruns hnot
  refine ⟨(readInto e r s.tick).nextStmt, step_of_hostRuns hruns, ?_⟩
  rw [readInto_of_no_value (s := s.tick) (readResult_of_not_done hnot)]
  exact ⟨getVar_eraseVar_same _ _, fun u hu => getVar_eraseVar_other hu _, rfl, rfl⟩

end Sys2Proof.Proofs
end

section
/-!
PROOFS. Reset and hazards (70_reset_and_hazards.md): what a RESET step leaves (R180, R181), the faults a host meets that
keeps its duties (R183, R184), and the machine with nothing to do (R188).
-/
namespace Sys2Proof.Proofs

open Sys2Proof.Machine Sys2Proof.Safety Sys2Proof.Laws

/-! ## RESET, and a machine with nothing to do -/

/-- IDLE sets no bit of `STATUS` (10_state.md R22). -/
theorem statusWord_of_idle {c : CoreState} (hidle : ∀ e, c.status e = .idle) (herr : c.cmdErr = false) :
    statusWord c = 0x00#8 := by
  have hmul : c.mul.st = .idle := hidle .mul
  have hdiv : c.div.st = .idle := hidle .div
  have hsqrt : c.sqrt.st = .idle := hidle .sqrt
  simp [statusWord, hmul, hdiv, hsqrt, herr]

/-- Settles O47: the step is `assertReset`, which writes the whole block and neither the record nor the host's own. -/
theorem resetStepClearsTheBlock : Obligations.ResetStepClearsTheBlock := by
  intro s hresets
  have hidle := resetCore_engines_idle s.tick.draws
  exact ⟨(assertReset s.tick).nextStmt, step_of_hostRuns hresets, hidle, rfl,
    statusWord_of_idle (fun e => (hidle e).1) rfl, rfl, rfl, rfl, rfl⟩

/-- Settles O35: nobody is enabled, so nobody moves. -/
theorem idleMachineKeepsItsState : Obligations.IdleMachineKeepsItsState := by
  intro s hhost hengines
  have hnobody : nextAgent s = none := nextAgent_eq_none.2 ((nobody_enabled_iff s).2 ⟨hhost, hengines⟩)
  simp only [step, hnobody]

/-! ## The duties, and what the invariant makes of them -/

theorem mayCommand_of_keepsDuty {h : HostSide} {st : HostStmt} {e : Engine} (hduty : keepsDuty h st = true)
    (hcommand : commandedEngine st = some e) : h.mayCommand.get e = true := by
  simp only [keepsDuty, hcommand, Bool.and_eq_true] at hduty
  exact hduty.1

theorem mayRead_of_keepsDuty {h : HostSide} {e : Engine} {v : Nat} (hduty : keepsDuty h (.rd e v) = true) :
    h.mayRead.get e = true :=
  (Bool.and_eq_true_iff.1 hduty).2

/-- An engine is IDLE, in FAULT (DIV alone), or has an operation under way (10_state.md R21). -/
theorem idle_or_fault_or_underWay {c : CoreState} (h : EnginesOk c) (e : Engine) :
    c.status e = .idle ∨ (e = .div ∧ c.status e = .fault) ∨ ∃ i, engineOf i = some e ∧ UnderWay i c := by
  obtain ⟨hmul, hdiv, hsqrt⟩ := h
  cases e with
  | mul =>
    rcases hmul with ⟨hidle, -⟩ | ⟨x, y, hrun⟩
    · exact .inl hidle
    · exact .inr <| .inr ⟨.mul x y, rfl, hrun⟩
  | div =>
    rcases hdiv with ⟨hidle | hfault, -⟩ | ⟨x, y, hrun⟩
    · exact .inl hidle
    · exact .inr <| .inl ⟨rfl, hfault⟩
    · exact .inr <| .inr ⟨.div x y, rfl, hrun⟩
  | sqrt =>
    rcases hsqrt with ⟨hidle, -⟩ | ⟨x, hrun⟩
    · exact .inl hidle
    · exact .inr <| .inr ⟨.sqrt x 0, rfl, hrun⟩

/-- Only DIV can be in FAULT (10_state.md R21). -/
theorem eq_div_of_fault {c : CoreState} (h : EnginesOk c) {e : Engine} (hfault : c.status e = .fault) : e = .div := by
  rcases idle_or_fault_or_underWay h e with hidle | ⟨he, -⟩ | ⟨i, hi, hway⟩
  · simp [hfault] at hidle
  · exact he
  · simpa [hfault] using busy_or_done_of_underWay hi hway

/-- An operation under way has a value, for no division by zero is under way (42_divide.md R126). -/
theorem commandValue_of_underWay {i : Instr} {c : CoreState} (h : UnderWay i c) : ∃ n, commandValue i = some n := by
  cases i with
  | mul x y => exact ⟨_, rfl⟩
  | div x y => exact ⟨_, div16_eq (word_le x) (word_pos (divisor_ne_zero h))⟩
  | sqrt x b => exact ⟨_, rfl⟩
  | reserved a b => exact h.elim

/-- A DONE engine's result register holds a value (10_state.md R27). -/
theorem readResult_eq_some_of_done {c : CoreState} (h : EnginesOk c) {e : Engine} (hdone : c.status e = .done) :
    ∃ n, readResult e c = some n := by
  rcases idle_or_fault_or_underWay h e with hidle | ⟨-, hfault⟩ | ⟨i, hi, hway⟩
  · simp [hdone] at hidle
  · simp [hdone] at hfault
  · rw [readResult_of_underWay hi hway hdone]
    exact commandValue_of_underWay hway

/-! ## The faults that the duties leave -/

/-- The faults that R183 and R184 do not keep a host from: causes 1 and 2, and cause 3 from a DIV engine in FAULT. -/
def MetInSpiteOfDuty (c : CoreState) : FaultEntry → Prop
  | .divByZero _ | .reservedOp _ => True
  | .engineNotReady e _ => e = .div ∧ c.div.st = .fault
  | .resultNotReady _ => False

/-- A command whose engine is not BUSY is lost to a DIV engine in FAULT alone. -/
theorem exec_metInSpiteOfDuty {i : Instr} {s t : State} (hok : EnginesOk s.core)
    (hnot : ∀ e, engineOf i = some e → s.core.status e ≠ .busy) (h : exec i s = .next t) :
    t.faults = s.faults ∨ ∃ f, t.faults = s.faults ++ [f] ∧ MetInSpiteOfDuty s.core f := by
  rcases exec_cases h with ⟨_, _, -, -, rfl⟩ | ⟨_, _, -, -, -, rfl⟩ | ⟨_, _, -, -, rfl⟩ | ⟨_, -, -, rfl⟩ |
    ⟨_, _, -, rfl⟩ | ⟨e, hi, hr, rfl⟩
  · exact .inl rfl
  · exact .inl rfl
  · exact .inl rfl
  · exact .inr ⟨_, rfl, trivial⟩
  · exact .inr ⟨_, rfl, trivial⟩
  · have hfault : s.core.status e = .fault := ((not_ready_iff e s.core).1 hr).resolve_left (hnot e hi)
    obtain rfl := eq_div_of_fault hok hfault
    exact .inr ⟨_, rfl, rfl, hfault⟩

/-- A permission to command means that the engine is not BUSY, and one to read that its register holds a value. -/
theorem runStmt_metInSpiteOfDuty {st : HostStmt} {s t : State} (hinv : Inv s) (hduty : keepsDuty s.host st = true)
    (h : runStmt st s = .next t) :
    t.faults = s.faults ∨ ∃ f, t.faults = s.faults ++ [f] ∧ MetInSpiteOfDuty s.core f := by
  obtain ⟨hok, hperm, -⟩ := (inv_iff s).1 hinv
  rcases runStmt_cases h with ⟨i, hst, hexec⟩ | ⟨v, -, rfl⟩ | ⟨e, v, rfl, rfl⟩ | ⟨e, v, -, rfl⟩ | ⟨-, rfl⟩
  · have hnot (e : Engine) (hi : engineOf i = some e) : s.core.status e ≠ .busy :=
      (hperm e).1 (mayCommand_of_keepsDuty hduty (hst.trans hi))
    simpa using exec_metInSpiteOfDuty (s := afterPresent i s) (by simpa using hok) (by simpa using hnot) hexec
  · exact .inl rfl
  · obtain ⟨n, hread⟩ := readResult_eq_some_of_done hok ((hperm e).2 (mayRead_of_keepsDuty hduty))
    exact .inl (by rw [readInto_of_value hread, nextStmt_faults])
  · exact .inl (pollOnce_faults e v s)
  · exact .inl rfl

/-- Settles O56: the host's step is its statement's, and the faults left are those of `MetInSpiteOfDuty`. -/
theorem hostDutyAvoidsProtocolFaults : Obligations.HostDutyAvoidsProtocolFaults := by
  intro s t st hinv hruns hduty hstep
  rw [step_of_hostRuns hruns] at hstep
  rcases runStmt_metInSpiteOfDuty (inv_tick hinv) hduty hstep with hsame | ⟨f, hf, hmet⟩
  · exact .inl hsame
  · cases f with
    | divByZero a => exact .inr <| .inl ⟨a, hf⟩
    | reservedOp w => exact .inr <| .inr <| .inl ⟨w, hf⟩
    | engineNotReady e w =>
      obtain ⟨rfl, hfault⟩ := hmet
      exact .inr <| .inr <| .inr ⟨hfault, w, hf⟩
    | resultNotReady e => exact hmet.elim

end Sys2Proof.Proofs
end
